-- ==== Sys2Proof/Syntax.lean ====
section
/-!
DEFINITION. The eight commands of the opcode map (spec 30 R69, R71; spec/opcode_table.json), one constructor per row.
-/

namespace Sys2Proof

/-- A decoded command. A byte count or a register index is a natural number, as operand assembly makes it (30 R67);
`Instr.WellFormed` bounds it by its field's width. A word that is none of these is ILLEGAL, which is no command but an
outcome of decoding (30 R69, R79). -/
inductive Instr where
  /-- NOP (42 R125). -/
  | nop
  /-- ENCODE: `len` is the payload length `L` (40 R90). -/
  | encode (len : Nat)
  /-- DECODE: `capacity` is the caller's buffer capacity `C` (40 R99). -/
  | decode (capacity : Nat)
  /-- JB_WRITE: `len` is the number of bytes offered, `n` (41 R110). -/
  | jbWrite (len : Nat)
  /-- JB_FILL: `len` is the length `n` of the frame offered (41 R112). -/
  | jbFill (len : Nat)
  /-- JB_PLAY: `len` is the number of bytes asked for, `n` (41 R115). -/
  | jbPlay (len : Nat)
  /-- JB_RESET (41 R120). -/
  | jbReset
  /-- RDREG: `index` is the register index `i` (42 R126). -/
  | rdreg (index : Nat)
  deriving DecidableEq, Repr

end Sys2Proof
end

