-- ==== Sys2Proof/WellFormed.lean ====
section
/-!
DEFINITION. Which commands a command word can express: a byte count fits the 16-bit LEN field, a register index the
8-bit SUB field (spec 00 R13; 30 R66, R67).
-/

namespace Sys2Proof

/-- The operand fits its field. The decoder yields only such commands. -/
def Instr.wellFormed : Instr → Bool
  | .nop => true
  | .encode len => decide (len < 2 ^ 16)
  | .decode capacity => decide (capacity < 2 ^ 16)
  | .jbWrite len => decide (len < 2 ^ 16)
  | .jbFill len => decide (len < 2 ^ 16)
  | .jbPlay len => decide (len < 2 ^ 16)
  | .jbReset => true
  | .rdreg index => decide (index < 2 ^ 8)

/-- `i.wellFormed` as a proposition. -/
abbrev Instr.WellFormed (i : Instr) : Prop := i.wellFormed = true

end Sys2Proof
end

