-- ==== Sys2Proof/Word.lean ====
section
/-!
DEFINITION. The word types of the block's command interface and registers
(spec 30 R65, R66; 10 R23 to R34).
-/

namespace Sys2Proof

/-- One byte of DIN, DOUT or the ring: every access is one byte (20 R52). -/
abbrev Byte := BitVec 8

/-- A 16-bit register or field: SEQ (10 R23), LEN (30 R66). -/
abbrev Half := BitVec 16

/-- A 32-bit register or a command word (30 R65). -/
abbrev Word := BitVec 32

end Sys2Proof
end

