-- ==== Sys2Proof/Decode.lean ====
section
/-!
DEFINITION. Decoding of command words, total on every 32-bit word (spec 30 R66, R67, R69), the encoder written from the
same opcode map (30 R71; 40 R90, R99; 41 R110, R112, R115, R120; 42 R125, R126), and the opcode map as masks and patterns.
-/

namespace Sys2Proof

/-- `OP`, bits 31:24 (30 R66). -/
def opField (w : Word) : Nat := (w.extractLsb' 24 8).toNat

/-- `SUB`, bits 23:16 (30 R66). -/
def subField (w : Word) : Nat := (w.extractLsb' 16 8).toNat

/-- `LEN`, bits 15:0 (30 R66). -/
def lenField (w : Word) : Nat := (w.extractLsb' 0 16).toNat

/-- Why a word is ILLEGAL. The block reports every one as ILLEGAL_COMMAND (30 R71, R79). -/
inductive Illegal where
  /-- OP is a reserved opcode: 0x03..0x0F, 0x13..0x1E or 0x21..0xFF. -/
  | reservedOpcode
  /-- SUB is nonzero under an opcode other than RDREG's. -/
  | nonzeroSub
  /-- LEN is nonzero under NOP, JB_RESET or RDREG. -/
  | nonzeroLen
  deriving DecidableEq, Repr

/-- The meaning of a command word: one of the eight commands, or ILLEGAL with the reason (30 R69). -/
inductive Decoded where
  /-- The word is this command. -/
  | command (i : Instr)
  /-- The word is ILLEGAL. -/
  | illegal (why : Illegal)
  deriving DecidableEq, Repr

/-- A command that uses LEN and needs SUB = 0. -/
def decodeLen (sub len : Nat) (make : Nat → Instr) : Decoded :=
  if sub = 0 then .command (make len) else .illegal .nonzeroSub

/-- A command with no operand: SUB = 0 and LEN = 0. -/
def decodeBare (sub len : Nat) (i : Instr) : Decoded :=
  if sub = 0 then if len = 0 then .command i else .illegal .nonzeroLen else .illegal .nonzeroSub

/-- The case table of 30 R69 over the three fields. -/
def decodeFields (op sub len : Nat) : Decoded :=
  if op = 0x00 then decodeBare sub len .nop
  else if op = 0x01 then decodeLen sub len .encode
  else if op = 0x02 then decodeLen sub len .decode
  else if op = 0x10 then decodeLen sub len .jbWrite
  else if op = 0x11 then decodeLen sub len .jbFill
  else if op = 0x12 then decodeLen sub len .jbPlay
  else if op = 0x1F then decodeBare sub len .jbReset
  else if op = 0x20 then if len = 0 then .command (.rdreg sub) else .illegal .nonzeroLen
  else .illegal .reservedOpcode

/-- The decoding function of 30 R69: each word is exactly one command, or ILLEGAL. -/
def decode (w : Word) : Decoded := decodeFields (opField w) (subField w) (lenField w)

/-- The command word with the given fields (30 R66). -/
def packFields (op sub len : Nat) : Word :=
  BitVec.ofNat 8 op ++ BitVec.ofNat 8 sub ++ BitVec.ofNat 16 len

/-- The word of a well-formed command (30 R71). -/
def encode : Instr → Word
  | .nop => packFields 0x00 0 0
  | .encode len => packFields 0x01 0 len
  | .decode capacity => packFields 0x02 0 capacity
  | .jbWrite len => packFields 0x10 0 len
  | .jbFill len => packFields 0x11 0 len
  | .jbPlay len => packFields 0x12 0 len
  | .jbReset => packFields 0x1F 0 0
  | .rdreg index => packFields 0x20 index 0

/-- The command's name in the opcode map (30 R71). -/
def mnemonic : Instr → String
  | .nop => "NOP"
  | .encode _ => "ENCODE"
  | .decode _ => "DECODE"
  | .jbWrite _ => "JB_WRITE"
  | .jbFill _ => "JB_FILL"
  | .jbPlay _ => "JB_PLAY"
  | .jbReset => "JB_RESET"
  | .rdreg _ => "RDREG"

/-- One row of the opcode map. -/
structure OpcodeRow where
  /-- The command's name. -/
  name : String
  /-- The column `match`. -/
  pattern : Word
  /-- The column `mask`. -/
  mask : Word
  deriving DecidableEq, Repr

/-- The opcode map, row by row (30 R71). -/
def opcodeMap : List OpcodeRow :=
  [ ⟨"NOP", 0x00000000, 0xFFFFFFFF⟩, ⟨"ENCODE", 0x01000000, 0xFFFF0000⟩,
    ⟨"DECODE", 0x02000000, 0xFFFF0000⟩, ⟨"JB_WRITE", 0x10000000, 0xFFFF0000⟩,
    ⟨"JB_FILL", 0x11000000, 0xFFFF0000⟩, ⟨"JB_PLAY", 0x12000000, 0xFFFF0000⟩,
    ⟨"JB_RESET", 0x1F000000, 0xFFFFFFFF⟩, ⟨"RDREG", 0x20000000, 0xFF00FFFF⟩ ]

/-- The instruction the decoder reads from the low `nbits` bits of `w`; the bits above are 0. A command is one 32-bit
word, presented as a number (30 R65), so bit 0 of the table is bit 0 of the word. -/
def decodeTableWord (nbits w : Nat) : Option Instr :=
  match decode (BitVec.ofNat 32 (w % 2 ^ nbits)) with
  | .command i => some i
  | .illegal _ => none

/-! Each constructor's decoding, from a word written out field by field: OP, SUB, LEN (30 R66, R71). -/

theorem decode_word_nop : decode 0b00000000_00000000_0000000000000000 = .command .nop := by decide
theorem decode_word_encode : decode 0b00000001_00000000_0000000010100000 = .command (.encode 160) := by decide
theorem decode_word_decode : decode 0b00000010_00000000_0000000100000000 = .command (.decode 256) := by decide
theorem decode_word_jbWrite : decode 0b00010000_00000000_0000000000000011 = .command (.jbWrite 3) := by decide
theorem decode_word_jbFill : decode 0b00010001_00000000_0000000101000000 = .command (.jbFill 320) := by decide
theorem decode_word_jbPlay : decode 0b00010010_00000000_0000000000001001 = .command (.jbPlay 9) := by decide
theorem decode_word_jbReset : decode 0b00011111_00000000_0000000000000000 = .command .jbReset := by decide
theorem decode_word_rdreg : decode 0b00100000_00001110_0000000000000000 = .command (.rdreg 14) := by decide

end Sys2Proof
end

