-- ==== Sys2Proof/Config.lean ====
section
/-!
DEFINITION. The configuration record that a reset fixes (spec 00 R9), its reference values, and the free values of the
model: what the spec leaves to a draw or does not specify.
-/

namespace Sys2Proof

/-- The configuration record `cfg`, constant from one reset to the next (00 R9; 10 R26, R27, R34). The widths are those
the registers are held in; the legal ranges are `Machine.configOk` (00 R10). -/
structure Cfg where
  /-- `PT`: the RTP payload type that ENCODE writes into byte 1. -/
  pt : Byte
  /-- `SAMPLE_RATE`: samples per second. -/
  sampleRate : Word
  /-- `SAMPLE_WIDTH`: bytes per sample. -/
  sampleWidth : Byte
  /-- `RTP_CLOCK`: the rate, in Hz, that the timestamp counts in. -/
  rtpClock : Word
  /-- `CAP`: the ring's capacity in bytes. -/
  cap : Word
  /-- `FRAME_BYTES`: one frame in bytes. -/
  frameBytes : Word
  /-- `PREFILL_FRAMES`: the prefill threshold in frames. -/
  prefillFrames : Word
  /-- `REFILL_FRAMES`: the steady-state refill threshold in frames. -/
  refillFrames : Word
  deriving DecidableEq, Repr

/-- The reference values of the parameter table (00 R9): test defaults, not requirements. DESIGN CHOICE that the one
state `State.reset` is configured with them (log entry 4); a reset takes any well-formed record. -/
def Config.reference : Cfg where
  pt := 0
  sampleRate := 8000
  sampleWidth := 2
  rtpClock := 8000
  cap := 19200
  frameBytes := 320
  prefillFrames := 12
  refillFrames := 2

/-- `SSRC_INIT` of the reset that made `State.reset`: a draw under no law (00 R12, 92 D9). Free value, log entry 5. -/
opaque Config.ssrcInit : Word

/-- `SEQ_INIT` of the reset that made `State.reset`: a draw under no law (00 R12, 92 D8). Free value, log entry 5. -/
opaque Config.seqInit : Half

/-- `TS_INIT` of the reset that made `State.reset`: a draw under no law (00 R12, 92 D8). Free value, log entry 5. -/
opaque Config.tsInit : Word

/-- What a ring index that nothing has written holds: unspecified (10 R28, R44). Free value, log entry 6. -/
opaque Config.ringInit : Nat → Byte

end Sys2Proof
end

