-- ==== Sys2Proof/Machine/State.lean ====
section
/-!
DEFINITION. The block's architectural state (spec 10 R19 to R34) and its command port (00 R17, R18; 20 R47; 30 R77), as
plain data, with the state after reset (10 R44) and the reasons a step has no next state.
-/

namespace Sys2Proof.Machine

/-- `PHASE` (10 R32). -/
inductive Phase where
  /-- 0: playback has not begun. -/
  | prefill
  /-- 1: playback has begun. -/
  | playing
  deriving DecidableEq, Repr

/-- The status of a result record (30 R78). The codes are `statusCode`; 0x0A..0xFF are never returned, so they have no
constructor. -/
inductive Status where
  | ok
  | shortDatagram
  | truncated
  | overflow
  | underflow
  | notStarted
  | notNeeded
  | badLength
  | badRegister
  | illegalCommand
  deriving DecidableEq, Repr

/-- The result record of one command (30 R77). -/
structure Result where
  /-- `status`, 8 bits as `statusCode` numbers it. -/
  status : Status
  /-- `count`: a byte count. -/
  count : Word
  /-- `value`: what RDREG read, 0 for every other command. -/
  value : Word
  /-- `DOUT`. -/
  dout : List Byte
  deriving DecidableEq, Repr

/-- What the host can do to the block (70 R158). -/
inductive HostAction where
  /-- Apply reset with a configuration and the three draws `SSRC_INIT`, `SEQ_INIT`, `TS_INIT` (10 R44; 00 R12). -/
  | reset (cfg : Cfg) (ssrcInit : Word) (seqInit : Half) (tsInit : Word)
  /-- Present a command word with its `DIN` (30 R65). -/
  | command (word : Word) (din : List Byte)
  deriving DecidableEq, Repr

/-- The framer session's registers (10 R19, R23 to R25). -/
structure Session where
  /-- `SEQ`: the sequence number of the next packet. -/
  seq : Half
  /-- `TS`: the timestamp of the next packet. -/
  ts : Word
  /-- `SSRC`: the synchronisation source identifier. -/
  ssrc : Word
  deriving DecidableEq, Repr

/-- The jitter buffer's registers and its ring (10 R19, R28 to R33). -/
structure JitterBuffer where
  /-- `RING`: the bytes written since reset, by strictly rising index. An index with no entry has not been written. -/
  ring : List Host.Cell
  /-- `RD`: the index of the oldest stored byte. -/
  rd : Nat
  /-- `WR`: the index where the next accepted byte is stored. -/
  wr : Nat
  /-- `COUNT`: the occupancy in bytes. -/
  count : Word
  /-- `PHASE`. -/
  phase : Phase
  /-- `UNDERFLOW`: the count of ticks that began below one frame. -/
  underflow : Word
  deriving DecidableEq, Repr

/-- The machine. The first three fields are the block (10 R19); the last three are the command port, which is the model's
own (log entries 1, 2, 9): the block itself stores neither a presentation nor a result (30 R77). -/
structure State where
  /-- The configuration fields of both units (00 R9). -/
  cfg : Cfg
  /-- The framer session. -/
  session : Session
  /-- The jitter buffer. -/
  jb : JitterBuffer
  /-- `DIN` of the presentation in progress; empty between commands (20 R47). -/
  din : List Byte
  /-- The host actions still to come, in the host's order (00 R18). -/
  script : List HostAction
  /-- The results returned so far, oldest first: the observation of the run (00 R18). -/
  results : List Result
  deriving DecidableEq, Repr

/-- The block raises no exception and has no fault state: every command returns a result record (60 R131). So there is no
reason for a fault, nobody raises one, and no step of the model ends in a fault. -/
inductive Fault
  deriving DecidableEq, Repr

/-- Why the model gives a host action no meaning. -/
inductive Refusal where
  /-- Raised by `exec` for a command that has no meaning in the model yet (none). Safe. -/
  | notModelled (mnemonic : String)
  /-- Raised by every command, ILLEGAL among them, when its DIN has not the length that 30 R76 requires: a host error
  of interface use, to which the spec gives no result (60 R134 (1)). Safe. -/
  | malformedPresentation
  /-- Raised by a reset whose configuration is not well formed: the spec gives such a block no meaning (00 R10,
  70 R152). Safe. -/
  | illFormedConfiguration
  deriving DecidableEq, Repr

/-- The machine just after a reset (10 R44) with the reference configuration (log entry 4) and the three draws left free
(log entry 5): the ring unspecified (log entry 6), the cursors, COUNT and UNDERFLOW 0, PHASE = PREFILL because
PREFILL_BYTES = 3840, and nothing at the port (log entries 1, 2, 9). `Laws.reset_is_resetBlock` proves it is what
`resetBlock` leaves. -/
def State.reset : State where
  cfg := Config.reference
  session := { seq := Config.seqInit, ts := Config.tsInit, ssrc := Config.ssrcInit }
  jb := { ring := [], rd := 0, wr := 0, count := 0, phase := .prefill, underflow := 0 }
  din := []
  script := []
  results := []

end Sys2Proof.Machine
end

