-- ==== Sys2Proof/Machine/Ops.lean ====
section
/-!
DEFINITION. The named operations over the ring, the cursors, the port and reset that the commands share (spec 00 R10,
R11; 10 R36, R44; 20 R46 to R48; 30 R77; 41 R107, R108, R121). The block takes no exceptions, so there is no operation
that enters or leaves one (60 R131, R137, R138).
-/

namespace Sys2Proof.Machine

/-! ### Bytes by address -/

/-- The canonical form: indices strictly rise. An unlisted index holds no byte of its own, so no entry can repeat what an
unlisted index reads as. -/
abbrev Memory.wf (m : List Host.Cell) : Prop := m.Pairwise (fun c d => c.1 < d.1)

/-- The byte written last at `a`, or `none` where nothing has been written. -/
def Memory.read : List Host.Cell → Nat → Option Byte
  | [], _ => none
  | c :: m, a => if c.1 = a then some c.2 else Memory.read m a

/-- The memory with byte `b` at `a`, in canonical form. -/
def Memory.write : List Host.Cell → Nat → Byte → List Host.Cell
  | [], a, b => [(a, b)]
  | c :: m, a, b =>
    if a < c.1 then (a, b) :: c :: m
    else if a = c.1 then (a, b) :: m
    else c :: Memory.write m a b

/-! ### Quantities derived from the configuration and the registers -/

/-- `PREFILL_BYTES` (00 R11). -/
def prefillBytes (c : Cfg) : Nat := c.prefillFrames.toNat * c.frameBytes.toNat

/-- `REFILL_BYTES` (00 R11). -/
def refillBytes (c : Cfg) : Nat := c.refillFrames.toNat * c.frameBytes.toNat

/-- A configuration is well formed when every field lies in its legal range (00 R9 table, R10). -/
def configOk (c : Cfg) : Bool :=
  decide (c.pt.toNat ≤ 127) && decide (1 ≤ c.sampleRate.toNat) && decide (1 ≤ c.sampleWidth.toNat) &&
  decide (1 ≤ c.rtpClock.toNat) && decide (1 ≤ c.cap.toNat) && decide (1 ≤ c.frameBytes.toNat) &&
  decide (c.frameBytes.toNat ≤ c.cap.toNat) && decide (prefillBytes c ≤ c.cap.toNat)

/-- `FREE = CAP − COUNT` (10 R36). -/
def free (s : State) : Nat := s.cfg.cap.toNat - s.jb.count.toNat

/-! ### The ring (20 R46, R48) -/

/-- `RingRead(i)` (00 R15). An index that nothing has written holds a free value (10 R28; log entry 6). -/
def ringRead (jb : JitterBuffer) (i : Nat) : Byte :=
  match Memory.read jb.ring i with
  | some b => b
  | none => Config.ringInit i

/-- Write the bytes at `pos`, `pos + 1`, …, each index taken modulo `cap` (20 R48). -/
def storeBytes (cap : Nat) (ring : List Host.Cell) (pos : Nat) : List Byte → List Host.Cell
  | [] => ring
  | b :: bs => storeBytes cap (Memory.write ring (pos % cap) b) (pos + 1) bs

/-- The `k` bytes from the read cursor onward, each index taken modulo `CAP` (20 R48). -/
def fetchBytes (s : State) (k : Nat) : List Byte :=
  (List.range k).map fun j => ringRead s.jb ((s.jb.rd + j) % s.cfg.cap.toNat)

/-! ### The port -/

/-- A result record with a byte count given as a natural number (30 R77). -/
def mkResult (status : Status) (count : Nat) (dout : List Byte) : Result :=
  { status := status, count := BitVec.ofNat 32 count, value := 0, dout := dout }

/-- Return a result: the command has consumed its whole DIN (20 R47) and the host holds the record (00 R17). -/
def answer (r : Result) (s : State) : State :=
  { s with din := [], results := s.results ++ [r] }

/-- Take the next presentation off the host's script and put its DIN at the port. -/
def latch (rest : List HostAction) (din : List Byte) (s : State) : State :=
  { s with script := rest, din := din }

/-- With no host action left the block waits: it takes no step on its own (00 R17; log entry 3). -/
def idle (s : State) : Host.Outcome State Fault Refusal := .next s

/-! ### The jitter buffer -/

/-- The phase that reset and JB_RESET leave (10 R44, 41 R121). -/
def initialPhase (c : Cfg) : Phase := if prefillBytes c = 0 then .playing else .prefill

/-- `update_phase()` (41 R107). -/
def updatePhase (c : Cfg) (jb : JitterBuffer) : JitterBuffer :=
  if jb.phase = .prefill ∧ prefillBytes c ≤ jb.count.toNat then { jb with phase := .playing } else jb

/-- How many of `n` offered bytes a store accepts: `min(n, FREE)` (41 R108, R109). -/
def accepted (n : Nat) (s : State) : Nat := min n (free s)

/-- The buffer after a store of `n` bytes offered in DIN (41 R108). -/
def storedJb (n : Nat) (s : State) : JitterBuffer :=
  updatePhase s.cfg { s.jb with
    ring := storeBytes s.cfg.cap.toNat s.jb.ring s.jb.wr (s.din.take (accepted n s))
    wr := (s.jb.wr + accepted n s) % s.cfg.cap.toNat
    count := BitVec.ofNat 32 (s.jb.count.toNat + accepted n s) }

/-- The result of a store (41 R108). -/
def storeResult (n : Nat) (s : State) : Result :=
  mkResult (if accepted n s < n then .overflow else .ok) (accepted n s) []

/-- `store(n)`, shared by JB_WRITE and JB_FILL (41 R108). -/
def store (n : Nat) (s : State) : State :=
  answer (storeResult n s) { s with jb := storedJb n s }

/-- The buffer emptied, its ring contents kept (41 R121). -/
def emptied (c : Cfg) (jb : JitterBuffer) : JitterBuffer :=
  { jb with rd := 0, wr := 0, count := 0, underflow := 0, phase := initialPhase c }

/-! ### Reset -/

/-- The block just after a reset with a well-formed configuration and three draws (10 R44). The host's script and the
results already returned are the host's, and stay (log entry 2). -/
def afterReset (cfg : Cfg) (ssrcInit : Word) (seqInit : Half) (tsInit : Word) (s : State) : State :=
  { s with
    cfg := cfg
    session := { seq := seqInit, ts := tsInit, ssrc := ssrcInit }
    jb := { ring := [], rd := 0, wr := 0, count := 0, phase := initialPhase cfg, underflow := 0 }
    din := [] }

/-- Reset, refused when the configuration is not well formed (00 R10; 70 R145, R152). -/
def resetBlock (cfg : Cfg) (ssrcInit : Word) (seqInit : Half) (tsInit : Word) (s : State) :
    Host.Outcome State Fault Refusal :=
  if configOk cfg then .next (afterReset cfg ssrcInit seqInit tsInit s) else .refused .illFormedConfiguration

end Sys2Proof.Machine
end

