-- ==== Sys2Proof/Machine/Flags.lean ====
section
/-!
DEFINITION. The derived status bits and the codes of the status field (spec 10 R37 to R40; 30 R78). The block has no
condition codes (10 R39).
-/

namespace Sys2Proof.Machine

/-- `NEED_FILL`: the fill policy asks for one more frame (10 R37). -/
def needFill (s : State) : Bool :=
  match s.jb.phase with
  | .prefill => decide (s.jb.count.toNat < prefillBytes s.cfg)
  | .playing => decide (s.cfg.frameBytes.toNat ≤ free s) && decide (s.jb.count.toNat < refillBytes s.cfg)

/-- `EMPTY` (10 R38). -/
def empty (s : State) : Bool := decide (s.jb.count = 0)

/-- `FULL` (10 R38). -/
def full (s : State) : Bool := decide (s.jb.count = s.cfg.cap)

/-- Bit 0 of `JB_STATUS` (10 R40). -/
def playing (s : State) : Bool := decide (s.jb.phase = .playing)

/-- `JB_STATUS`: PLAYING in bit 0, NEED_FILL in bit 1, EMPTY in bit 2, FULL in bit 3, bits 31:4 zero (10 R40). -/
def jbStatus (s : State) : Word :=
  BitVec.ofNat 32 ((playing s).toNat + 2 * (needFill s).toNat + 4 * (empty s).toNat + 8 * (full s).toNat)

/-- The 8-bit status codes (30 R78). -/
def statusCode : Status → Byte
  | .ok => 0x00
  | .shortDatagram => 0x01
  | .truncated => 0x02
  | .overflow => 0x03
  | .underflow => 0x04
  | .notStarted => 0x05
  | .notNeeded => 0x06
  | .badLength => 0x07
  | .badRegister => 0x08
  | .illegalCommand => 0x09

end Sys2Proof.Machine
end

