-- ==== Sys2Proof/Machine/Operands.lean ====
section
/-!
DEFINITION. What a command finds at its operands: the DIN that must come with it (spec 30 R76) and the register that an
RDREG index selects (10 R41).
-/

namespace Sys2Proof.Machine

/-- The longest DIN that a presentation may have (00 R13). -/
abbrev maxDin : Nat := 65535

/-- Whether a DIN of `d` bytes makes a well-formed presentation of the command (30 R76, the rows of the commands). -/
def dinOk : Instr → Nat → Bool
  | .nop, d => decide (d = 0)
  | .encode len, d => decide (d = len)
  | .decode _, d => decide (d ≤ maxDin)
  | .jbWrite len, d => decide (d = len)
  | .jbFill len, d => decide (d = len)
  | .jbPlay _, d => decide (d = 0)
  | .jbReset, d => decide (d = 0)
  | .rdreg _, d => decide (d = 0)

/-- Whether a DIN of `d` bytes makes a well-formed presentation of an ILLEGAL word (30 R76, the last row). -/
def dinOkIllegal (d : Nat) : Bool := decide (d ≤ maxDin)

/-- The outcome of a presentation: refused before anything else when its DIN has the wrong length (60 R134 (1)), else the
state that the command leaves. -/
def perform (ok : Bool) (t : State) : Host.Outcome State Fault Refusal :=
  if ok then .next t else .refused .malformedPresentation

/-- A DIN that makes a presentation of the command well formed: zeros, as many as the command requires, and none where
any length will do. -/
def someDin : Instr → List Byte
  | .encode len => List.replicate len 0
  | .jbWrite len => List.replicate len 0
  | .jbFill len => List.replicate len 0
  | .nop => []
  | .decode _ => []
  | .jbPlay _ => []
  | .jbReset => []
  | .rdreg _ => []

/-- `REG(i)`, the register an index selects, zero-extended to 32 bits; `none` for an index with no register (10 R41). -/
def regValue (s : State) (i : Nat) : Option Word :=
  match i with
  | 0x00 => some (s.session.seq.setWidth 32)
  | 0x01 => some s.session.ts
  | 0x02 => some s.session.ssrc
  | 0x03 => some (s.cfg.pt.setWidth 32)
  | 0x04 => some s.cfg.sampleRate
  | 0x05 => some (s.cfg.sampleWidth.setWidth 32)
  | 0x06 => some s.cfg.rtpClock
  | 0x07 => some s.cfg.cap
  | 0x08 => some s.cfg.frameBytes
  | 0x09 => some s.cfg.prefillFrames
  | 0x0A => some s.cfg.refillFrames
  | 0x0B => some s.jb.count
  | 0x0C => some (BitVec.ofNat 32 (free s))
  | 0x0D => some s.jb.underflow
  | 0x0E => some (jbStatus s)
  | _ => none

end Sys2Proof.Machine
end

