-- ==== Sys2Proof/Machine/Control.lean ====
section
/-!
DEFINITION. The control commands NOP and RDREG (spec 42), and the outcome of an ILLEGAL word (30 R79).
-/

namespace Sys2Proof.Machine

/-- NOP (42 R125). -/
def execNop (s : State) : Host.Outcome State Fault Refusal :=
  perform (dinOk .nop s.din.length) (answer (mkResult .ok 0 []) s)

/-- The result of RDREG (42 R127, R128). -/
def rdregResult (s : State) (i : Nat) : Result :=
  match regValue s i with
  | some v => { status := .ok, count := 0, value := v, dout := [] }
  | none => mkResult .badRegister 0 []

/-- RDREG (42 R127). -/
def execRdreg (index : Nat) (s : State) : Host.Outcome State Fault Refusal :=
  perform (dinOk (.rdreg index) s.din.length) (answer (rdregResult s index) s)

/-- A word that decodes to no command: DIN is discarded and nothing else changes (30 R79). -/
def execIllegal (s : State) : Host.Outcome State Fault Refusal :=
  perform (dinOkIllegal s.din.length) (answer (mkResult .illegalCommand 0 []) s)

end Sys2Proof.Machine
end

