-- ==== Sys2Proof/Machine/Framer.lean ====
section
/-!
DEFINITION. The framer's commands ENCODE and DECODE (spec 40; the packet layout is 30 R72).
-/

namespace Sys2Proof.Machine

/-- A 16-bit field, most significant byte first (20 R49). -/
def bigEndian16 (v : Half) : List Byte := [v.extractLsb' 8 8, v.extractLsb' 0 8]

/-- A 32-bit field, most significant byte first (20 R49). -/
def bigEndian32 (v : Word) : List Byte :=
  [v.extractLsb' 24 8, v.extractLsb' 16 8, v.extractLsb' 8 8, v.extractLsb' 0 8]

/-- Bytes 0 to 11 of a packet (30 R72): 0x80, the payload type, SEQ, TS and SSRC as they are before the command. -/
def rtpHeader (c : Cfg) (f : Session) : List Byte :=
  [0x80, c.pt] ++ bigEndian16 f.seq ++ bigEndian32 f.ts ++ bigEndian32 f.ssrc

/-- The length of the header, and of the longest datagram that is noise (30 R75). -/
abbrev headerBytes : Nat := 12

/-- `TS_INC(L)`, computed exactly over the naturals and rounded toward zero (40 R85). A well-formed configuration has no
zero divisor (00 R10; log entry 11). -/
def tsInc (c : Cfg) (len : Nat) : Nat :=
  (len * c.rtpClock.toNat) / (c.sampleRate.toNat * c.sampleWidth.toNat)

/-- The session after an ENCODE of `len` bytes (40 R92, R93). -/
def advance (c : Cfg) (len : Nat) (f : Session) : Session :=
  { f with seq := f.seq + 1, ts := BitVec.ofNat 32 (f.ts.toNat + tsInc c len) }

/-- ENCODE (40 R91, R95). -/
def execEncode (len : Nat) (s : State) : Host.Outcome State Fault Refusal :=
  perform (dinOk (.encode len) s.din.length) <|
    if len = 0 then answer (mkResult .badLength 0 []) s
    else
      answer (mkResult .ok (len + headerBytes) (rtpHeader s.cfg s.session ++ s.din))
        { s with session := advance s.cfg len s.session }

/-- The result of DECODE on a datagram: validity is the length alone, bytes 0 to 11 are stripped unread (40 R100). -/
def decodeResult (capacity : Nat) (datagram : List Byte) : Result :=
  if datagram.length ≤ headerBytes then mkResult .shortDatagram 0 []
  else
    let payload := datagram.drop headerBytes
    let k := min payload.length capacity
    mkResult (if k < payload.length then .truncated else .ok) k (payload.take k)

/-- DECODE: no state changes (40 R100, R103). -/
def execDecode (capacity : Nat) (s : State) : Host.Outcome State Fault Refusal :=
  perform (dinOk (.decode capacity) s.din.length) (answer (decodeResult capacity s.din) s)

end Sys2Proof.Machine
end

