-- ==== Sys2Proof/Machine/JitterBuffer.lean ====
section
/-!
DEFINITION. The jitter buffer's commands JB_WRITE, JB_FILL, JB_PLAY and JB_RESET (spec 41).
-/

namespace Sys2Proof.Machine

/-- JB_WRITE: a store in either phase, whatever NEED_FILL (41 R111). -/
def execJbWrite (len : Nat) (s : State) : Host.Outcome State Fault Refusal :=
  perform (dinOk (.jbWrite len) s.din.length) (store len s)

/-- JB_FILL: a store when the fill policy asks for a frame (41 R113). -/
def execJbFill (len : Nat) (s : State) : Host.Outcome State Fault Refusal :=
  perform (dinOk (.jbFill len) s.din.length) <|
    if needFill s then store len s else answer (mkResult .notNeeded 0 []) s

/-- The tick begins with less than one frame stored (41 R116, R117). -/
def tickUnderflows (s : State) : Bool := decide (s.jb.count.toNat < s.cfg.frameBytes.toNat)

/-- How many bytes a tick that asks for `n` returns: `min(n, COUNT)` (41 R116). -/
def played (n : Nat) (s : State) : Nat := min n s.jb.count.toNat

/-- The buffer after a tick that asks for `n` bytes (41 R116). -/
def playedJb (n : Nat) (s : State) : JitterBuffer :=
  { s.jb with
    rd := (s.jb.rd + played n s) % s.cfg.cap.toNat
    count := BitVec.ofNat 32 (s.jb.count.toNat - played n s)
    underflow := if tickUnderflows s then s.jb.underflow + 1 else s.jb.underflow }

/-- One playback tick in PLAYING (41 R116). -/
def tick (n : Nat) (s : State) : State :=
  answer (mkResult (if tickUnderflows s then .underflow else .ok) (played n s) (fetchBytes s (played n s)))
    { s with jb := playedJb n s }

/-- JB_PLAY: in PREFILL it is no tick (41 R116, R119). -/
def execJbPlay (len : Nat) (s : State) : Host.Outcome State Fault Refusal :=
  perform (dinOk (.jbPlay len) s.din.length) <|
    match s.jb.phase with
    | .prefill => answer (mkResult .notStarted 0 []) s
    | .playing => tick len s

/-- JB_RESET (41 R121). -/
def execJbReset (s : State) : Host.Outcome State Fault Refusal :=
  perform (dinOk .jbReset s.din.length) <|
    answer (mkResult .ok 0 []) { s with jb := emptied s.cfg s.jb }

end Sys2Proof.Machine
end

