-- ==== Sys2Proof/Machine/Dispatch.lean ====
section
/-!
DEFINITION. One arm per command: each is a call of that command's meaning.
-/

namespace Sys2Proof.Machine

def exec (i : Instr) (s : State) : Host.Outcome State Fault Refusal :=
  match i with
  | .nop => Sys2Proof.Machine.execNop s
  | .encode len => Sys2Proof.Machine.execEncode len s
  | .decode capacity => Sys2Proof.Machine.execDecode capacity s
  | .jbWrite len => Sys2Proof.Machine.execJbWrite len s
  | .jbFill len => Sys2Proof.Machine.execJbFill len s
  | .jbPlay len => Sys2Proof.Machine.execJbPlay len s
  | .jbReset => Sys2Proof.Machine.execJbReset s
  | .rdreg index => Sys2Proof.Machine.execRdreg index s

end Sys2Proof.Machine
end

