-- ==== Sys2Proof/Machine/Step.lean ====
section
/-!
DEFINITION. One step: the next host action, completely and atomically (spec 00 R17, R18; 20 R55). The block fetches
nothing (10 R22): the next command is the head of the host's script.
-/

namespace Sys2Proof.Machine

/-- Perform the next host action: a reset, a command, or an ILLEGAL word. -/
def step (s : State) : Host.Outcome State Fault Refusal :=
  match s.script with
  | [] => idle s
  | .reset cfg ssrcInit seqInit tsInit :: rest => resetBlock cfg ssrcInit seqInit tsInit { s with script := rest }
  | .command w din :: rest =>
    match decode w with
    | .command i => exec i (latch rest din s)
    | .illegal _ => execIllegal (latch rest din s)

/-- The presentation of the low `nbits` bits of `w`, with a DIN that makes it well formed (log entry 13). -/
def presentTableWord (nbits w : Nat) : HostAction :=
  match decodeTableWord nbits w with
  | some i => .command (BitVec.ofNat 32 (w % 2 ^ nbits)) (someDin i)
  | none => .command (BitVec.ofNat 32 (w % 2 ^ nbits)) []

/-- `s` with a presentation of the low `nbits` bits of `w` put first in the host's script, so that the next step performs
it (log entry 1). -/
def State.withFetchWord (s : State) (nbits w : Nat) : State :=
  { s with script := presentTableWord nbits w :: s.script }

end Sys2Proof.Machine
end

