-- ==== Sys2Proof/Machine/Assembler.lean ====
section
/-!
DEFINITION. The assembler syntax, the pseudo-instructions and the disassembly of command words (spec 30 R81 to R83). No
command's meaning depends on this file.
-/

namespace Sys2Proof.Machine

/-! ### Names -/

/-- The register names, by index (10 R41). -/
def registerNames : List String :=
  [ "SEQ", "TS", "SSRC", "PT", "SAMPLE_RATE", "SAMPLE_WIDTH", "RTP_CLOCK", "JB_CAP", "JB_FRAME_BYTES",
    "JB_PREFILL_FRAMES", "JB_REFILL_FRAMES", "JB_AVAIL", "JB_FREE", "JB_UNDERFLOW", "JB_STATUS" ]

/-- The name of an assigned register index. -/
def registerName (i : Nat) : Option String := registerNames[i]?

/-- The index of a register name. -/
def registerIndex (name : String) : Option Nat := registerNames.findIdx? fun n => decide (n = name)

/-! ### Pseudo-instructions (30 R82) -/

/-- The pseudo-instructions. -/
inductive Pseudo where
  | avail
  | free
  | underflows
  | jbstat
  | getseq
  | getts
  | drain
  | playframe
  deriving DecidableEq, Repr

/-- The expansion of a pseudo-instruction. PLAYFRAME takes the configured frame size, and is defined only when LEN can
hold it (30 R82). -/
def expand (c : Cfg) : Pseudo → Option Instr
  | .avail => some (.rdreg 0x0B)
  | .free => some (.rdreg 0x0C)
  | .underflows => some (.rdreg 0x0D)
  | .jbstat => some (.rdreg 0x0E)
  | .getseq => some (.rdreg 0x00)
  | .getts => some (.rdreg 0x01)
  | .drain => some (.decode 0)
  | .playframe => if c.frameBytes.toNat < 2 ^ 16 then some (.jbPlay c.frameBytes.toNat) else none

/-- The pseudo-instruction of that name. -/
def pseudoNamed (name : String) : Option Pseudo :=
  if name = "AVAIL" then some .avail
  else if name = "FREE" then some .free
  else if name = "UNDERFLOWS" then some .underflows
  else if name = "JBSTAT" then some .jbstat
  else if name = "GETSEQ" then some .getseq
  else if name = "GETTS" then some .getts
  else if name = "DRAIN" then some .drain
  else if name = "PLAYFRAME" then some .playframe
  else none

/-! ### Disassembly (30 R83) -/

/-- The eight hexadecimal digits of a word, in capitals. -/
def hexDigits (w : Word) : String :=
  String.ofList ((List.range 8).map fun k => (Nat.digitChar (w.toNat / 16 ^ (7 - k) % 16)).toUpper)

/-- The operand as text: decimal, or the register's name when the index is assigned. -/
def operandText : Instr → Option String
  | .nop => none
  | .encode len => some (Nat.repr len)
  | .decode capacity => some (Nat.repr capacity)
  | .jbWrite len => some (Nat.repr len)
  | .jbFill len => some (Nat.repr len)
  | .jbPlay len => some (Nat.repr len)
  | .jbReset => none
  | .rdreg index => some ((registerName index).getD (Nat.repr index))

/-- The printed form of a word (30 R83). -/
def disassemble (w : Word) : String :=
  match decode w with
  | .command i =>
    match operandText i with
    | some t => mnemonic i ++ " " ++ t
    | none => mnemonic i
  | .illegal _ => ".word 0x" ++ hexDigits w

/-! ### Assembly of one line (30 R81) -/

/-- Cut a line into tokens at white space, with the brackets, the comma and the equals sign tokens of their own; a
semicolon starts a comment. `word` is the token read so far. -/
def tokens : List Char → List Char → List String
  | [], word => if word = [] then [] else [String.ofList word]
  | c :: cs, word =>
    let done := if word = [] then [] else [String.ofList word]
    if c = ';' then done
    else if c = ' ' ∨ c = '\t' then done ++ tokens cs []
    else if c = '[' ∨ c = ']' ∨ c = ',' ∨ c = '=' then done ++ [String.ofList [c]] ++ tokens cs []
    else tokens cs (word ++ [c])

/-- The value of a digit in a base of at most 16. -/
def digitValue (base : Nat) (c : Char) : Option Nat :=
  let v :=
    if '0' ≤ c ∧ c ≤ '9' then c.toNat - '0'.toNat
    else if 'a' ≤ c ∧ c ≤ 'f' then c.toNat - 'a'.toNat + 10
    else if 'A' ≤ c ∧ c ≤ 'F' then c.toNat - 'A'.toNat + 10
    else 16
  if v < base then some v else none

/-- Digits to a number, most significant first. -/
def digitsValue (base : Nat) : Nat → List Char → Option Nat
  | acc, [] => some acc
  | acc, c :: cs =>
    match digitValue base c with
    | some v => digitsValue base (acc * base + v) cs
    | none => none

/-- A number in decimal, or in hexadecimal after `0x` (00 R14). -/
def numberToken (t : String) : Option Nat :=
  match t.toList with
  | [] => none
  | '0' :: 'x' :: d :: ds => digitsValue 16 0 (d :: ds)
  | ds => digitsValue 10 0 ds

/-- A number below a bound. -/
def numberBelow (bound : Nat) (t : String) : Option Nat :=
  match numberToken t with
  | some n => if n < bound then some n else none
  | none => none

/-- The bytes of a data list after its first, up to the closing bracket that ends the line. -/
def dataTail : List String → Option (List Byte)
  | [close] => if close = "]" then some [] else none
  | comma :: t :: rest =>
    if comma = "," then
      match numberBelow 256 t, dataTail rest with
      | some b, some bs => some (BitVec.ofNat 8 b :: bs)
      | _, _ => none
    else none
  | [] => none

/-- The bytes of a data list after its opening bracket. -/
def dataBytes : List String → Option (List Byte)
  | [] => none
  | t :: rest =>
    if t = "]" ∧ rest = [] then some []
    else
      match numberBelow 256 t, dataTail rest with
      | some b, some bs => some (BitVec.ofNat 8 b :: bs)
      | _, _ => none

/-- A line's parts after its mnemonic: the operand and the `data=` list, each of which may be absent. -/
structure Parts where
  /-- The operand's token. -/
  operand : Option String
  /-- The bytes of `data=`. -/
  data : Option (List Byte)
  deriving DecidableEq, Repr

/-- The `data=` list that ends a line, or the line's end. -/
def dataPart : List String → Option (Option (List Byte))
  | [] => some none
  | d :: e :: b :: rest =>
    if d = "data" ∧ e = "=" ∧ b = "[" then (dataBytes rest).map some else none
  | _ => none

/-- Split what follows the mnemonic. -/
def splitParts : List String → Option Parts
  | [] => some { operand := none, data := none }
  | t :: rest =>
    if t = "data" then (dataPart (t :: rest)).map fun d => { operand := none, data := d }
    else (dataPart rest).map fun d => { operand := some t, data := d }

/-- A command whose DIN must have as many bytes as its operand says; the operand may be left out when `data=` is there
(30 R81). -/
def assembleSized (make : Nat → Instr) (p : Parts) : Option HostAction :=
  match p.operand, p.data with
  | none, some d => if d.length < 2 ^ 16 then some (.command (encode (make d.length)) d) else none
  | some t, d =>
    match numberBelow (2 ^ 16) t with
    | some n => if (d.getD []).length = n then some (.command (encode (make n)) (d.getD [])) else none
    | none => none
  | none, none => none

/-- A command with an operand and no `data=`. -/
def assembleOperand (operand : String → Option Nat) (make : Nat → Instr) (p : Parts) : Option HostAction :=
  match p.operand, p.data with
  | some t, none => (operand t).map fun n => .command (encode (make n)) []
  | _, _ => none

/-- A command with neither. -/
def assembleBare (i : Instr) (p : Parts) : Option HostAction :=
  if p.operand = none ∧ p.data = none then some (.command (encode i) []) else none

/-- The index operand of RDREG: a number below 256 or a register's name (30 R81). -/
def indexOperand (t : String) : Option Nat :=
  match registerIndex t with
  | some i => some i
  | none => numberBelow (2 ^ 8) t

/-- DECODE takes its capacity as operand and its datagram as data (30 R81). -/
def assembleDecode (p : Parts) : Option HostAction :=
  match p.operand with
  | some t =>
    match numberBelow (2 ^ 16) t with
    | some n =>
      if (p.data.getD []).length ≤ maxDin then some (.command (encode (.decode n)) (p.data.getD [])) else none
    | none => none
  | none => none

/-- A word given as a number, with any DIN: the printed form of an ILLEGAL word (30 R83), as the programs of 95 use it
(DEDUCED, log entry 14). -/
def assembleWord (p : Parts) : Option HostAction :=
  match p.operand with
  | some t => (numberBelow (2 ^ 32) t).map fun n => .command (BitVec.ofNat 32 n) (p.data.getD [])
  | none => none

/-- A pseudo-instruction takes no operand; DRAIN takes the datagram as data (30 R82). -/
def assemblePseudo (c : Cfg) (q : Pseudo) (p : Parts) : Option HostAction :=
  match expand c q with
  | some (.decode n) => if p.operand = none then assembleDecode { p with operand := some (Nat.repr n) } else none
  | some i => assembleBare i p
  | none => none

/-- The command a mnemonic and its parts stand for. -/
def assembleCommand (c : Cfg) (name : String) (p : Parts) : Option HostAction :=
  if name = "NOP" then assembleBare .nop p
  else if name = "ENCODE" then assembleSized .encode p
  else if name = "DECODE" then assembleDecode p
  else if name = "JB_WRITE" then assembleSized .jbWrite p
  else if name = "JB_FILL" then assembleSized .jbFill p
  else if name = "JB_PLAY" then assembleOperand (numberBelow (2 ^ 16)) .jbPlay p
  else if name = "JB_RESET" then assembleBare .jbReset p
  else if name = "RDREG" then assembleOperand indexOperand .rdreg p
  else if name = ".word" then assembleWord p
  else
    match pseudoNamed name with
    | some q => assemblePseudo c q p
    | none => none

/-- One line of assembly: `none` when it is no line of the language, and an empty list for a line that is blank or holds
only a comment (30 R81). -/
def assembleLine (c : Cfg) (line : String) : Option (List HostAction) :=
  match tokens line.toList [] with
  | [] => some []
  | name :: rest =>
    match splitParts rest with
    | some p => (assembleCommand c name p).map fun a => [a]
    | none => none

/-- A program: its lines in order (95 section 3). -/
def assembleProgram (c : Cfg) : List String → Option (List HostAction)
  | [] => some []
  | line :: rest =>
    match assembleLine c line, assembleProgram c rest with
    | some a, some as => some (a ++ as)
    | _, _ => none

end Sys2Proof.Machine
end

