-- ==== Sys2Proof/Safety.lean ====
section
/-!
DEFINITION. What claims about runs are stated in: the invariant of the block (spec 10 R35), the bytes the buffer holds,
the two units' commands (10 R19), and the bytes that a run of commands stores and plays (41 R123).
-/

namespace Sys2Proof.Machine

/-- The bytes stored and not yet played, oldest first: `RING[(RD + i) mod CAP]` for `0 ≤ i < COUNT` (10 R35 (d)). -/
def contents (s : State) : List Byte := fetchBytes s s.jb.count.toNat

/-- What holds after reset and after every command (10 R35), with the configuration well formed (00 R10), the cursors in
range (10 R29, R30), the ring in canonical form within its `CAP` indices (10 R28), and every stored byte one that was
written (10 R28, R35 (d)). -/
structure State.Inv (s : State) : Prop where
  cfg_ok : configOk s.cfg = true
  count_le_cap : s.jb.count.toNat ≤ s.cfg.cap.toNat
  rd_lt_cap : s.jb.rd < s.cfg.cap.toNat
  wr_eq : s.jb.wr = (s.jb.rd + s.jb.count.toNat) % s.cfg.cap.toNat
  prefill_below : s.jb.phase = .prefill → s.jb.count.toNat < prefillBytes s.cfg
  ring_wf : Memory.wf s.jb.ring
  ring_in_cap : ∀ c ∈ s.jb.ring, c.1 < s.cfg.cap.toNat
  stored_written : ∀ i < s.jb.count.toNat, (Memory.read s.jb.ring ((s.jb.rd + i) % s.cfg.cap.toNat)).isSome = true

/-- The framer's commands (10 R19). -/
def isFramerCommand : Instr → Bool
  | .encode _ => true
  | .decode _ => true
  | .nop => false
  | .jbWrite _ => false
  | .jbFill _ => false
  | .jbPlay _ => false
  | .jbReset => false
  | .rdreg _ => false

/-- The jitter buffer's commands (10 R19, R21). -/
def isBufferCommand : Instr → Bool
  | .jbWrite _ => true
  | .jbFill _ => true
  | .jbPlay _ => true
  | .jbReset => true
  | .nop => false
  | .encode _ => false
  | .decode _ => false
  | .rdreg _ => false

/-- Whether a presentation is well formed (30 R76). -/
def presentationOk (w : Word) (din : List Byte) : Bool :=
  match decode w with
  | .command i => dinOk i din.length
  | .illegal _ => dinOkIllegal din.length

/-- `k` steps, one host action each, up to the first refusal (00 R18). `Laws.runSteps_eq` proves it is the host's run. -/
def runSteps : Nat → State → Host.Outcome State Fault Refusal
  | 0, s => .next s
  | k + 1, s =>
    match step s with
    | .next t => runSteps k t
    | .fault r => .fault r
    | .refused r => .refused r

/-- `s` with one presentation as its whole script. -/
def presenting (w : Word) (din : List Byte) (s : State) : State := { s with script := [.command w din] }

/-- The bytes that a command with this result stored: the first `count` bytes of a store's DIN (41 R108, R123). -/
def bytesStored (w : Word) (din : List Byte) (r : Result) : List Byte :=
  match decode w with
  | .command (.jbWrite _) => din.take r.count.toNat
  | .command (.jbFill _) => din.take r.count.toNat
  | _ => []

/-- The bytes that a command with this result played: JB_PLAY's DOUT (41 R116, R123). -/
def bytesPlayed (w : Word) (r : Result) : List Byte :=
  match decode w with
  | .command (.jbPlay _) => r.dout
  | _ => []

/-- A run of commands with what it did to the buffer. -/
structure Flow where
  /-- The state after the last command. -/
  last : State
  /-- The bytes stored by the run, in order. -/
  stored : List Byte
  /-- The bytes played by the run, in order. -/
  played : List Byte
  deriving DecidableEq, Repr

/-- Present the commands one after another; `none` where one is refused. -/
def flow : List (Word × List Byte) → State → Option Flow
  | [], s => some { last := s, stored := [], played := [] }
  | (w, din) :: rest, s =>
    match step (presenting w din s) with
    | .next t =>
      match t.results.getLast?, flow rest t with
      | some r, some f =>
        some { last := f.last, stored := bytesStored w din r ++ f.stored, played := bytesPlayed w r ++ f.played }
      | _, _ => none
    | .fault _ => none
    | .refused _ => none

/-- The script of a host that offers frames to JB_FILL one after another (41 R114). -/
def fillScript (frames : List (List Byte)) : List HostAction :=
  frames.map fun f => .command (encode (.jbFill f.length)) f

/-- The script of a host that encodes payloads one after another (40 R92). -/
def encodeScript (payloads : List (List Byte)) : List HostAction :=
  payloads.map fun p => .command (encode (.encode p.length)) p

end Sys2Proof.Machine
end

