-- ==== Sys2Proof/Certificates/Slice0/Obligations.lean ====
section
/-!
DEFINITION. The statements for the provers. Each docstring names the rules of spec/ that the statement formalises.
`OBLIGATIONS.json` lists them.
-/

open Sys2Proof Sys2Proof.Machine

/-! ## Encoding -/

/-- R66, R67, R71: decoding the word of a well-formed command gives the command back, with every operand at every value
its field admits. -/
def Obligations.DecodeEncodeRoundTrip : Prop :=
  ∀ i : Instr, i.WellFormed → decode (encode i) = .command i

/-- R69: a word that decodes to a command is that command's one word, and the command is well formed: no word has two
meanings and no bit of a word is dropped. -/
def Obligations.DecodedWordReencodes : Prop :=
  ∀ (w : Word) (i : Instr), decode w = .command i → i.WellFormed ∧ encode i = w

/-- R67, R69: the words of each command, as numbers: a word decodes to the command exactly when it is the opcode's number
plus the operand in its field, with the operand in the field's range; it is ILLEGAL exactly when it decodes to none. -/
def Obligations.DecodeReadsEveryWord : Prop :=
  ∀ (w : Word) (n : Nat),
    (decode w = .command .nop ↔ w.toNat = 0) ∧
    (decode w = .command (.encode n) ↔ n ≤ 65535 ∧ w.toNat = 0x01000000 + n) ∧
    (decode w = .command (.decode n) ↔ n ≤ 65535 ∧ w.toNat = 0x02000000 + n) ∧
    (decode w = .command (.jbWrite n) ↔ n ≤ 65535 ∧ w.toNat = 0x10000000 + n) ∧
    (decode w = .command (.jbFill n) ↔ n ≤ 65535 ∧ w.toNat = 0x11000000 + n) ∧
    (decode w = .command (.jbPlay n) ↔ n ≤ 65535 ∧ w.toNat = 0x12000000 + n) ∧
    (decode w = .command .jbReset ↔ w.toNat = 0x1F000000) ∧
    (decode w = .command (.rdreg n) ↔ n ≤ 255 ∧ w.toNat = 0x20000000 + n * 65536) ∧
    ((∃ why, decode w = .illegal why) ↔ ∀ i, decode w ≠ .command i)

/-- R71: a word matches a row of the opcode map, by the row's mask and pattern, exactly when it decodes to that row's
command; a word that matches no row is ILLEGAL. -/
def Obligations.DecodeAgreesWithOpcodeMap : Prop :=
  ∀ w : Word,
    (∀ row ∈ opcodeMap, w &&& row.mask = row.pattern ↔ ∃ i, decode w = .command i ∧ mnemonic i = row.name) ∧
    ((∀ row ∈ opcodeMap, w &&& row.mask ≠ row.pattern) ↔ ∃ why, decode w = .illegal why)

/-- R69, R71: words written out from the opcode map, one for each command, and reserved words, decode as the map says. -/
def Obligations.DecodeReadsSpecWords : Prop :=
  decode 0x00000000 = .command .nop ∧ decode 0x010000A0 = .command (.encode 160) ∧
  decode 0x0200FFFF = .command (.decode 65535) ∧ decode 0x10000003 = .command (.jbWrite 3) ∧
  decode 0x11000140 = .command (.jbFill 320) ∧ decode 0x12000009 = .command (.jbPlay 9) ∧
  decode 0x1F000000 = .command .jbReset ∧ decode 0x20FF0000 = .command (.rdreg 255) ∧
  decode 0x00000001 = .illegal .nonzeroLen ∧ decode 0x01010002 = .illegal .nonzeroSub ∧
  decode 0x200E0001 = .illegal .nonzeroLen ∧ decode 0x13000000 = .illegal .reservedOpcode

/-! ## The shape of a run -/

/-- R17, R69: when the next host action presents a word that decodes to a command, the step is that command's execution
with the word off the script and the presentation's DIN at the port. -/
def Obligations.StepRunsDecodedCommand : Prop :=
  ∀ (s : State) (w : Word) (din : List Byte) (rest : List HostAction) (i : Instr),
    s.script = .command w din :: rest → decode w = .command i →
      step s = exec i { s with script := rest, din := din }

/-- R79: a word that decodes to no command, with any DIN the port can carry, changes no state of the block, discards the
DIN and returns `ILLEGAL_COMMAND(0)` with DOUT empty. -/
def Obligations.IllegalWordChangesNoState : Prop :=
  ∀ (s : State) (w : Word) (din : List Byte) (rest : List HostAction) (why : Illegal),
    s.script = .command w din :: rest → decode w = .illegal why → din.length ≤ 65535 →
      step s = .next { s with
        script := rest, din := [],
        results := s.results ++ [{ status := .illegalCommand, count := 0, value := 0, dout := [] }] }

/-- R17 (the block takes no step on its own), by the model's convention of log entry 3: with no host action left, a step
leaves the state as it is. -/
def Obligations.WaitsWithoutHostAction : Prop :=
  ∀ s : State, s.script = [] → step s = .next s

/-- R76: a presentation whose DIN has not the length its command requires is refused. -/
def Obligations.RefusesDinOfWrongLength : Prop :=
  ∀ (s : State) (n : Nat),
    (s.din.length ≠ n → exec (.encode n) s = .refused .malformedPresentation ∧
      exec (.jbWrite n) s = .refused .malformedPresentation ∧
      exec (.jbFill n) s = .refused .malformedPresentation) ∧
    (65535 < s.din.length → exec (.decode n) s = .refused .malformedPresentation ∧
      execIllegal s = .refused .malformedPresentation) ∧
    (s.din.length ≠ 0 → exec .nop s = .refused .malformedPresentation ∧
      exec (.jbPlay n) s = .refused .malformedPresentation ∧
      exec .jbReset s = .refused .malformedPresentation ∧
      exec (.rdreg n) s = .refused .malformedPresentation)

/-- R77, R131: every well-formed presentation, legal or ILLEGAL, completes and returns exactly one result record; its
value is 0 unless the command is RDREG, and DOUT has `count` bytes for ENCODE, DECODE and JB_PLAY and none for the rest. -/
def Obligations.EveryCommandReturnsOneResult : Prop :=
  ∀ (s : State) (w : Word) (din : List Byte) (rest : List HostAction),
    s.script = .command w din :: rest → presentationOk w din = true →
      ∃ t r, step s = .next t ∧ t.script = rest ∧ t.din = [] ∧ t.results = s.results ++ [r] ∧
        ((∀ i, decode w ≠ .command (.rdreg i)) → r.value = 0) ∧
        (∀ i, decode w = .command i → (isFramerCommand i = true ∨ ∃ n, i = .jbPlay n) →
          r.dout.length = r.count.toNat) ∧
        (∀ i, decode w = .command i → isFramerCommand i = false → (∀ n, i ≠ .jbPlay n) → r.dout = []) ∧
        (∀ why, decode w = .illegal why → r.dout = [])

/-- R78: the code of each status. -/
def Obligations.StatusCodesAreTheTable : Prop :=
  statusCode .ok = 0x00 ∧ statusCode .shortDatagram = 0x01 ∧ statusCode .truncated = 0x02 ∧
  statusCode .overflow = 0x03 ∧ statusCode .underflow = 0x04 ∧ statusCode .notStarted = 0x05 ∧
  statusCode .notNeeded = 0x06 ∧ statusCode .badLength = 0x07 ∧ statusCode .badRegister = 0x08 ∧
  statusCode .illegalCommand = 0x09

/-! ## Reset -/

/-- R44: a reset with a configuration in the legal ranges and any three draws leaves every register at the rule's value:
the configuration, the draws, the cursors and counters 0, and PHASE as PREFILL_BYTES decides; the rule leaves the ring
unspecified, so nothing is said of it here. JB_STATUS then reads 0b0110 when PREFILL_BYTES > 0, and else 0b0101 or 0b0111 as REFILL_BYTES decides. -/
def Obligations.ResetSetsEveryRegister : Prop :=
  ∀ (s : State) (c : Cfg) (ssrcInit : Word) (seqInit : Half) (tsInit : Word) (rest : List HostAction),
    s.script = .reset c ssrcInit seqInit tsInit :: rest →
    c.pt.toNat ≤ 127 → 1 ≤ c.sampleRate.toNat → 1 ≤ c.sampleWidth.toNat → 1 ≤ c.rtpClock.toNat →
    1 ≤ c.frameBytes.toNat → c.frameBytes.toNat ≤ c.cap.toNat →
    c.prefillFrames.toNat * c.frameBytes.toNat ≤ c.cap.toNat →
      ∃ t, step s = .next t ∧ t.cfg = c ∧ t.session = { seq := seqInit, ts := tsInit, ssrc := ssrcInit } ∧
        t.jb.rd = 0 ∧ t.jb.wr = 0 ∧ t.jb.count = 0 ∧ t.jb.underflow = 0 ∧
        t.jb.phase = (if c.prefillFrames.toNat * c.frameBytes.toNat = 0 then .playing else .prefill) ∧
        ∃ u r, exec (.rdreg 0x0E) t = .next u ∧ u.results = t.results ++ [r] ∧
          r.value = (if 0 < c.prefillFrames.toNat * c.frameBytes.toNat then 0b0110
            else if c.refillFrames.toNat * c.frameBytes.toNat = 0 then 0b0101 else 0b0111)

/-- R10, R152: a reset is refused exactly when some field of the configuration is out of its legal range. -/
def Obligations.ResetRefusesIllFormedConfiguration : Prop :=
  ∀ (s : State) (c : Cfg) (ssrcInit : Word) (seqInit : Half) (tsInit : Word) (rest : List HostAction),
    s.script = .reset c ssrcInit seqInit tsInit :: rest →
      (step s = .refused .illFormedConfiguration ↔
        127 < c.pt.toNat ∨ c.sampleRate = 0 ∨ c.sampleWidth = 0 ∨ c.rtpClock = 0 ∨ c.frameBytes = 0 ∨
          c.cap.toNat < c.frameBytes.toNat ∨ c.cap.toNat < c.prefillFrames.toNat * c.frameBytes.toNat)

/-- The one state `State.reset` (the model's choice of the reference configuration, log entry 4, with free draws, log
entry 5) meets the invariant, so an invariant that every step keeps holds along every run from it. -/
def Obligations.StateResetMeetsInvariant : Prop :=
  State.reset.Inv ∧ State.reset.cfg = Config.reference ∧ State.reset.jb.count = 0 ∧ State.reset.jb.phase = .prefill

/-- R35, R44: whatever the state before, the state after any completed reset meets the invariant. By the model's
conventions, the host's script goes on with its next action and the results already returned stay (log entry 2), and no
byte of the ring counts as written (log entry 6). -/
def Obligations.EveryResetEstablishesInvariant : Prop :=
  ∀ (s t : State) (c : Cfg) (ssrcInit : Word) (seqInit : Half) (tsInit : Word) (rest : List HostAction),
    s.script = .reset c ssrcInit seqInit tsInit :: rest → step s = .next t →
      t.Inv ∧ t.script = rest ∧ t.results = s.results ∧ t.din = [] ∧ ∀ i, Memory.read t.jb.ring i = none

/-! ## Invariants and whole-machine rules -/

/-- R35, R122: every step keeps the invariant: the occupancy is at most CAP, the write cursor is the read cursor plus the
occupancy modulo CAP, PREFILL means below the prefill threshold, the ring stays in canonical form within CAP, and every
stored byte is one that was written. -/
def Obligations.StepKeepsInvariant : Prop :=
  ∀ s t : State, s.Inv → step s = .next t → t.Inv

/-- R21: no command and no ILLEGAL word changes the configuration or SSRC; SEQ and TS change only through ENCODE; the
buffer's registers and its ring change only through JB_WRITE, JB_FILL, JB_PLAY and JB_RESET. -/
def Obligations.RegistersChangeOnlyThroughTheirCommands : Prop :=
  ∀ (s t : State) (w : Word) (din : List Byte) (rest : List HostAction),
    s.script = .command w din :: rest → step s = .next t →
      t.cfg = s.cfg ∧ t.session.ssrc = s.session.ssrc ∧
      ((∀ len, decode w ≠ .command (.encode len)) → t.session = s.session) ∧
      ((∀ i, decode w = .command i → isBufferCommand i = false) → t.jb = s.jb)

/-- R60: a framer command and a buffer command commute: presented in either order, each returns the same result and the
block ends in the same state. -/
def Obligations.FramerAndBufferCommandsCommute : Prop :=
  ∀ (s : State) (w v : Word) (din dat : List Byte) (i j : Instr),
    decode w = .command i → decode v = .command j → isFramerCommand i = true → isBufferCommand j = true →
    presentationOk w din = true → presentationOk v dat = true →
      ∃ t u r q,
        runSteps 2 { s with script := [.command w din, .command v dat] } = .next t ∧
        runSteps 2 { s with script := [.command v dat, .command w din] } = .next u ∧
        t.results = s.results ++ [r, q] ∧ u.results = s.results ++ [q, r] ∧
        t.cfg = u.cfg ∧ t.session = u.session ∧ t.jb = u.jb

/-- R117: UNDERFLOW goes up by exactly 1 at each JB_PLAY in PLAYING that begins below one frame, and at nothing else;
JB_RESET, which clears it, is left out here. -/
def Obligations.UnderflowCountsOncePerTick : Prop :=
  ∀ (s t : State) (w : Word) (din : List Byte) (rest : List HostAction),
    s.script = .command w din :: rest → decode w ≠ .command .jbReset → step s = .next t →
      (((∃ n, decode w = .command (.jbPlay n)) ∧ s.jb.phase = .playing ∧
          s.jb.count.toNat < s.cfg.frameBytes.toNat → t.jb.underflow = s.jb.underflow + 1) ∧
       (¬ ((∃ n, decode w = .command (.jbPlay n)) ∧ s.jb.phase = .playing ∧
          s.jb.count.toNat < s.cfg.frameBytes.toNat) → t.jb.underflow = s.jb.underflow))

/-- R32, R107: no command but JB_RESET ends PLAYING, and only a store that brings the occupancy to PREFILL_BYTES ends
PREFILL. -/
def Obligations.PhaseChangesOnlyAtThreshold : Prop :=
  ∀ (s t : State) (w : Word) (din : List Byte) (rest : List HostAction),
    s.script = .command w din :: rest → decode w ≠ .command .jbReset → step s = .next t →
      (s.jb.phase = .playing → t.jb.phase = .playing) ∧
      (s.jb.phase = .prefill → t.jb.phase = .playing →
        s.cfg.prefillFrames.toNat * s.cfg.frameBytes.toNat ≤ t.jb.count.toNat ∧
        ((∃ n, decode w = .command (.jbWrite n)) ∨ ∃ n, decode w = .command (.jbFill n)))

/-! ## NOP and RDREG -/

/-- R125: NOP returns `OK(0)` and changes no state; the word 0 decodes to it, and a word with `OP = 0x00` and any other bit
set is ILLEGAL. -/
def Obligations.NopReturnsOk : Prop :=
  (∀ w : Word, decode w = .command .nop ↔ w = 0x00000000) ∧
  (∀ w : Word, w.toNat < 0x01000000 → w ≠ 0x00000000 → ∃ why, decode w = .illegal why) ∧
  ∀ s : State, s.din = [] →
    exec .nop s = .next { s with
      results := s.results ++ [{ status := .ok, count := 0, value := 0, dout := [] }] }

/-- R41, R127, R128, in a state that meets the invariant: RDREG returns the register of each assigned index, zero-extended, with FREE and JB_STATUS computed at
the command (R36, R37, R40), BAD_REGISTER with value 0 for every other index, and changes no state. -/
def Obligations.RdregReadsEachRegister : Prop :=
  ∀ s : State, s.Inv → s.din = [] →
    let reads (i v : Nat) : Prop := exec (.rdreg i) s = .next { s with
      results := s.results ++ [{ status := .ok, count := 0, value := BitVec.ofNat 32 v, dout := [] }] }
    reads 0x00 s.session.seq.toNat ∧ reads 0x01 s.session.ts.toNat ∧ reads 0x02 s.session.ssrc.toNat ∧
    reads 0x03 s.cfg.pt.toNat ∧ reads 0x04 s.cfg.sampleRate.toNat ∧ reads 0x05 s.cfg.sampleWidth.toNat ∧
    reads 0x06 s.cfg.rtpClock.toNat ∧ reads 0x07 s.cfg.cap.toNat ∧ reads 0x08 s.cfg.frameBytes.toNat ∧
    reads 0x09 s.cfg.prefillFrames.toNat ∧ reads 0x0A s.cfg.refillFrames.toNat ∧ reads 0x0B s.jb.count.toNat ∧
    reads 0x0C (s.cfg.cap.toNat - s.jb.count.toNat) ∧ reads 0x0D s.jb.underflow.toNat ∧
    reads 0x0E ((if s.jb.phase = .playing then 1 else 0) +
      (if (s.jb.phase = .prefill ∧ s.jb.count.toNat < s.cfg.prefillFrames.toNat * s.cfg.frameBytes.toNat) ∨
          (s.jb.phase = .playing ∧ s.cfg.frameBytes.toNat ≤ s.cfg.cap.toNat - s.jb.count.toNat ∧
            s.jb.count.toNat < s.cfg.refillFrames.toNat * s.cfg.frameBytes.toNat) then 2 else 0) +
      (if s.jb.count = 0 then 4 else 0) + (if s.jb.count = s.cfg.cap then 8 else 0)) ∧
    ∀ i, 0x0F ≤ i → exec (.rdreg i) s = .next { s with
      results := s.results ++ [{ status := .badRegister, count := 0, value := 0, dout := [] }] }

/-- R40, with R37 and R38, in a state that meets the invariant: the JB_STATUS word that RDREG index 0x0E returns, bit by bit. -/
def Obligations.StatusWordBits : Prop :=
  ∀ s : State, s.Inv → s.din = [] →
    ∃ t r, exec (.rdreg 0x0E) s = .next t ∧ t.results = s.results ++ [r] ∧ r.status = .ok ∧
      (r.value.getLsbD 0 = true ↔ s.jb.phase = .playing) ∧
      (r.value.getLsbD 1 = true ↔
        (s.jb.phase = .prefill ∧ s.jb.count.toNat < s.cfg.prefillFrames.toNat * s.cfg.frameBytes.toNat) ∨
        (s.jb.phase = .playing ∧ s.cfg.frameBytes.toNat ≤ s.cfg.cap.toNat - s.jb.count.toNat ∧
          s.jb.count.toNat < s.cfg.refillFrames.toNat * s.cfg.frameBytes.toNat)) ∧
      (r.value.getLsbD 2 = true ↔ s.jb.count.toNat = 0) ∧
      (r.value.getLsbD 3 = true ↔ s.jb.count.toNat = s.cfg.cap.toNat) ∧
      ∀ b, 4 ≤ b → r.value.getLsbD b = false

/-- R122: in every state that meets the invariant, the values RDREG returns for JB_AVAIL and JB_FREE are at most CAP and
add up to it. -/
def Obligations.AvailAndFreeAddUpToCapacity : Prop :=
  ∀ s : State, s.Inv → s.din = [] →
    ∃ t u r q, exec (.rdreg 0x0B) s = .next t ∧ t.results = s.results ++ [r] ∧
      exec (.rdreg 0x0C) s = .next u ∧ u.results = s.results ++ [q] ∧
      r.value.toNat ≤ s.cfg.cap.toNat ∧ r.value.toNat + q.value.toNat = s.cfg.cap.toNat

/-! ## The framer -/

/-- R72, R91, R95, R98, under a well-formed configuration: ENCODE of `L ≥ 1` payload bytes emits 0x80, the payload type, SEQ, TS and SSRC most significant
byte first, then the payload; SEQ goes up by 1 modulo 2^16 and TS by the increment of R85 modulo 2^32; it returns
`OK(L + 12)` and changes nothing else. With an empty payload it emits nothing, changes no state and returns
`BAD_LENGTH(0)`. -/
def Obligations.EncodeEmitsPacket : Prop :=
  ∀ (s : State) (len : Nat), configOk s.cfg = true → s.din.length = len →
    exec (.encode len) s = .next
      (if len = 0 then { s with
        results := s.results ++ [{ status := .badLength, count := 0, value := 0, dout := [] }] }
      else { s with
        session := { s.session with
          seq := BitVec.ofNat 16 (s.session.seq.toNat + 1)
          ts := BitVec.ofNat 32 (s.session.ts.toNat +
            (len * s.cfg.rtpClock.toNat) / (s.cfg.sampleRate.toNat * s.cfg.sampleWidth.toNat)) }
        din := []
        results := s.results ++ [{
          status := .ok, count := BitVec.ofNat 32 (len + 12), value := 0
          dout := [0x80, s.cfg.pt,
            s.session.seq.extractLsb' 8 8, s.session.seq.extractLsb' 0 8,
            s.session.ts.extractLsb' 24 8, s.session.ts.extractLsb' 16 8,
            s.session.ts.extractLsb' 8 8, s.session.ts.extractLsb' 0 8,
            s.session.ssrc.extractLsb' 24 8, s.session.ssrc.extractLsb' 16 8,
            s.session.ssrc.extractLsb' 8 8, s.session.ssrc.extractLsb' 0 8] ++ s.din }] })

/-- R74: under a well-formed configuration byte 0 of every packet is 0x80, byte 1 equals PT, and its bit 7, the marker,
is 0. -/
def Obligations.MarkerBitIsClear : Prop :=
  ∀ (s : State) (len : Nat), configOk s.cfg = true → s.din.length = len → 1 ≤ len →
    ∃ t r, exec (.encode len) s = .next t ∧ t.results = s.results ++ [r] ∧
      r.dout[0]? = some 0x80 ∧ r.dout[1]? = some s.cfg.pt ∧ s.cfg.pt.getLsbD 7 = false

/-- R86: when the RTP clock is the sample rate, an ENCODE advances TS by the number of whole samples in the payload. -/
def Obligations.TimestampCountsSamples : Prop :=
  ∀ (s : State) (len : Nat), configOk s.cfg = true → s.cfg.rtpClock = s.cfg.sampleRate → s.din.length = len →
    1 ≤ len →
      ∃ t, exec (.encode len) s = .next t ∧
        t.session.ts.toNat = (s.session.ts.toNat + len / s.cfg.sampleWidth.toNat) % 2 ^ 32

/-- R92, R93, R94, R98, under a well-formed configuration: `N` ENCODEs presented one after another emit SEQ, SEQ + 1, …, each with the timestamp that the
increments before it have reached, the one SSRC, and `L + 12` bytes; they leave SEQ advanced by `N` and TS by the sum of
the increments. -/
def Obligations.ConsecutiveEncodesCount : Prop :=
  ∀ (s : State) (payloads : List (List Byte)),
    configOk s.cfg = true → (∀ p ∈ payloads, 1 ≤ p.length ∧ p.length < 2 ^ 16) → s.script = encodeScript payloads →
    let inc (p : List Byte) : Nat :=
      (p.length * s.cfg.rtpClock.toNat) / (s.cfg.sampleRate.toNat * s.cfg.sampleWidth.toNat)
    ∃ t rs, runSteps payloads.length s = .next t ∧ t.results = s.results ++ rs ∧
      t.cfg = s.cfg ∧ t.jb = s.jb ∧ t.session.ssrc = s.session.ssrc ∧
      t.session.seq.toNat = (s.session.seq.toNat + payloads.length) % 65536 ∧
      t.session.ts.toNat = (s.session.ts.toNat + (payloads.map inc).sum) % 2 ^ 32 ∧
      rs.length = payloads.length ∧
      ∀ (j : Nat) (p : List Byte), payloads[j]? = some p →
        ∃ r, rs[j]? = some r ∧ r.status = .ok ∧ r.count.toNat = p.length + 12 ∧ r.dout.length = p.length + 12 ∧
          r.dout = [0x80, s.cfg.pt] ++ bigEndian16 (BitVec.ofNat 16 (s.session.seq.toNat + j)) ++
            bigEndian32 (BitVec.ofNat 32 (s.session.ts.toNat + ((payloads.take j).map inc).sum)) ++
            bigEndian32 s.session.ssrc ++ p

/-- R100, R101, R102, R103: DECODE drains a datagram of 12 bytes or fewer; of a longer one it returns the first
`min(D − 12, C)` bytes after byte 11, with TRUNCATED when that is not the whole payload; it changes no state. -/
def Obligations.DecodeStripsHeader : Prop :=
  ∀ (s : State) (capacity : Nat), s.din.length ≤ 65535 →
    let answers (r : Result) : Prop :=
      exec (.decode capacity) s = .next { s with din := [], results := s.results ++ [r] }
    if s.din.length ≤ 12 then answers { status := .shortDatagram, count := 0, value := 0, dout := [] }
    else if capacity < s.din.length - 12 then
      answers { status := .truncated, count := BitVec.ofNat 32 capacity, value := 0,
                dout := (s.din.drop 12).take capacity }
    else answers { status := .ok, count := BitVec.ofNat 32 (s.din.length - 12), value := 0, dout := s.din.drop 12 }

/-- R100: DECODE does not read bytes 0 to 11: two datagrams of one length that agree after byte 11 give one result,
whatever the session. -/
def Obligations.DecodeIgnoresHeaderBytes : Prop :=
  ∀ (s u : State) (capacity : Nat), s.din.length ≤ 65535 → u.din.length = s.din.length →
    u.din.drop 12 = s.din.drop 12 →
      ∃ t v r, exec (.decode capacity) s = .next t ∧ exec (.decode capacity) u = .next v ∧
        t.results = s.results ++ [r] ∧ v.results = u.results ++ [r]

/-- R105, where the packet can be presented: a datagram is at most 65535 bytes (R13), so `L ≤ 65523` (log entry 12).
DECODE with capacity `C` of the DOUT of an ENCODE returns the payload when `L ≤ C`, and its first `C` bytes with
TRUNCATED when `C < L`; the receiver's state is any. -/
def Obligations.DecodeUndoesEncode : Prop :=
  ∀ (s u : State) (len capacity : Nat), s.din.length = len → 1 ≤ len → len + 12 ≤ 65535 →
    ∃ t r, exec (.encode len) s = .next t ∧ t.results = s.results ++ [r] ∧
      ∃ v q, exec (.decode capacity) { u with din := r.dout } = .next v ∧ v.results = u.results ++ [q] ∧
        v.session = u.session ∧ v.jb = u.jb ∧
        (len ≤ capacity → q = { status := .ok, count := BitVec.ofNat 32 len, value := 0, dout := s.din }) ∧
        (capacity < len → q = { status := .truncated, count := BitVec.ofNat 32 capacity, value := 0,
                                dout := s.din.take capacity })

/-! ## The jitter buffer -/

/-- R107, R108, R109, R111, in a state that meets the invariant: JB_WRITE accepts `k = min(n, FREE)` bytes; byte `j` of DIN goes to index
`(WR + j) mod CAP` for `j < k` and every other index keeps its byte; WR and COUNT advance by `k`; PHASE becomes PLAYING
when COUNT reaches PREFILL_BYTES; it returns `OVERFLOW(k)` when `k < n`, else `OK(k)`; nothing else changes. -/
def Obligations.JbWriteStoresBytes : Prop :=
  ∀ (s : State) (n : Nat), s.Inv → s.din.length = n →
    let k := min n (s.cfg.cap.toNat - s.jb.count.toNat)
    ∃ t, exec (.jbWrite n) s = .next t ∧
      t.cfg = s.cfg ∧ t.session = s.session ∧ t.din = [] ∧ t.script = s.script ∧
      t.results = s.results ++
        [{ status := if k < n then .overflow else .ok, count := BitVec.ofNat 32 k, value := 0, dout := [] }] ∧
      t.jb.rd = s.jb.rd ∧ t.jb.underflow = s.jb.underflow ∧
      t.jb.wr = (s.jb.wr + k) % s.cfg.cap.toNat ∧ t.jb.count.toNat = s.jb.count.toNat + k ∧
      t.jb.phase = (if s.jb.phase = .prefill ∧
          s.cfg.prefillFrames.toNat * s.cfg.frameBytes.toNat ≤ s.jb.count.toNat + k
        then .playing else s.jb.phase) ∧
      (∀ j < k, s.din[j]? = some (ringRead t.jb ((s.jb.wr + j) % s.cfg.cap.toNat))) ∧
      ∀ a, (∀ j < k, a ≠ (s.jb.wr + j) % s.cfg.cap.toNat) → ringRead t.jb a = ringRead s.jb a

/-- R113, with R37, in a state that meets the invariant: when NEED_FILL is 1 JB_FILL does what JB_WRITE of the same bytes does; when it is 0 it returns
`NOT_NEEDED(0)`, discards DIN and changes no state. -/
def Obligations.JbFillFollowsPolicy : Prop :=
  ∀ (s : State) (n : Nat), s.Inv → s.din.length = n →
    let need : Prop :=
      (s.jb.phase = .prefill ∧ s.jb.count.toNat < s.cfg.prefillFrames.toNat * s.cfg.frameBytes.toNat) ∨
      (s.jb.phase = .playing ∧ s.cfg.frameBytes.toNat ≤ s.cfg.cap.toNat - s.jb.count.toNat ∧
        s.jb.count.toNat < s.cfg.refillFrames.toNat * s.cfg.frameBytes.toNat)
    (need → ∃ t, exec (.jbFill n) s = .next t ∧ exec (.jbWrite n) s = .next t) ∧
    (¬ need → exec (.jbFill n) s = .next { s with
      din := [], results := s.results ++ [{ status := .notNeeded, count := 0, value := 0, dout := [] }] })

/-- R113, corner cases, in states that meet the invariant: a JB_FILL of one frame or less that the policy takes in PLAYING
never overflows, and a JB_FILL of one byte or more in PREFILL stores at least one byte. -/
def Obligations.JbFillMakesProgress : Prop :=
  ∀ (s : State) (n : Nat), s.Inv → s.din.length = n →
    (s.jb.phase = .playing → n ≤ s.cfg.frameBytes.toNat → s.cfg.frameBytes.toNat ≤ s.cfg.cap.toNat - s.jb.count.toNat →
      s.jb.count.toNat < s.cfg.refillFrames.toNat * s.cfg.frameBytes.toNat →
        ∃ t, exec (.jbFill n) s = .next t ∧ t.jb.count.toNat = s.jb.count.toNat + n ∧
          t.results = s.results ++ [{ status := .ok, count := BitVec.ofNat 32 n, value := 0, dout := [] }]) ∧
    (s.jb.phase = .prefill → 1 ≤ n →
      ∃ t, exec (.jbFill n) s = .next t ∧ s.jb.count.toNat + 1 ≤ t.jb.count.toNat)

/-- R116, R118, R119, in a state that meets the invariant: a JB_PLAY in PREFILL is no tick: it reads nothing, counts no underflow, changes no state and returns
`NOT_STARTED(0)`. A tick in PLAYING returns the `k = min(n, COUNT)` bytes at `(RD + j) mod CAP`, moves RD and COUNT by
`k`, counts an underflow and says so exactly when it began below one frame, and changes nothing else: every byte of the
ring, WR and PHASE stay. -/
def Obligations.JbPlayReturnsOldestBytes : Prop :=
  ∀ (s : State) (n : Nat), s.Inv → s.din = [] →
    let k := min n s.jb.count.toNat
    let u : Bool := decide (s.jb.count.toNat < s.cfg.frameBytes.toNat)
    (s.jb.phase = .prefill → exec (.jbPlay n) s = .next { s with
      results := s.results ++ [{ status := .notStarted, count := 0, value := 0, dout := [] }] }) ∧
    (s.jb.phase = .playing → ∃ t, exec (.jbPlay n) s = .next t ∧
      t.cfg = s.cfg ∧ t.session = s.session ∧ t.din = [] ∧ t.script = s.script ∧
      t.results = s.results ++
        [{ status := if u then .underflow else .ok, count := BitVec.ofNat 32 k, value := 0,
           dout := (List.range k).map fun j => ringRead s.jb ((s.jb.rd + j) % s.cfg.cap.toNat) }] ∧
      t.jb.rd = (s.jb.rd + k) % s.cfg.cap.toNat ∧ t.jb.count.toNat = s.jb.count.toNat - k ∧
      t.jb.underflow.toNat = (if u then (s.jb.underflow.toNat + 1) % 2 ^ 32 else s.jb.underflow.toNat) ∧
      t.jb.wr = s.jb.wr ∧ t.jb.phase = s.jb.phase ∧ ∀ a, ringRead t.jb a = ringRead s.jb a)

/-- R121: JB_RESET clears RD, WR, COUNT and UNDERFLOW, sets PHASE as after reset, leaves the ring's bytes, the framer and
the configuration as they are, and returns `OK(0)`. -/
def Obligations.JbResetEmptiesBuffer : Prop :=
  ∀ s : State, s.din = [] →
    exec .jbReset s = .next { s with
      jb := { s.jb with
        rd := 0, wr := 0, count := 0, underflow := 0
        phase := if s.cfg.prefillFrames.toNat * s.cfg.frameBytes.toNat = 0 then .playing else .prefill }
      results := s.results ++ [{ status := .ok, count := 0, value := 0, dout := [] }] }

/-- R56: NOP, RDREG and JB_RESET are idempotent: a second one leaves the block as the first did and returns the same
result. -/
def Obligations.IdempotentCommands : Prop :=
  ∀ (s : State) (i : Instr), s.din = [] → (i = .nop ∨ i = .jbReset ∨ ∃ k, i = .rdreg k) →
      ∃ t u r, exec i s = .next t ∧ exec i t = .next u ∧ t.results = s.results ++ [r] ∧
        u.results = t.results ++ [r] ∧ u.cfg = t.cfg ∧ u.session = t.session ∧ u.jb = t.jb

/-- R108, R35 (d): in a state that meets the invariant, a store of `n` bytes appends the first `min(n, FREE)` bytes of DIN
to the bytes the buffer holds. -/
def Obligations.StoreAppendsToContents : Prop :=
  ∀ (s : State) (n : Nat), s.Inv → s.din.length = n →
    ∃ t, exec (.jbWrite n) s = .next t ∧
      contents t = contents s ++ s.din.take (min n (s.cfg.cap.toNat - s.jb.count.toNat))

/-- R116, R35 (d): in every state, what a tick returns followed by what the buffer then holds is what it held before. -/
def Obligations.PlayTakesFromFront : Prop :=
  ∀ (s : State) (n : Nat), s.din = [] → s.jb.phase = .playing →
    ∃ t r, exec (.jbPlay n) s = .next t ∧ t.results = s.results ++ [r] ∧ r.dout ++ contents t = contents s

/-- R28, R35 (d): in a state that meets the invariant, every byte JB_PLAY returns is one that was written: no free value
of the ring is ever observed. -/
def Obligations.PlayReturnsOnlyWrittenBytes : Prop :=
  ∀ (s t : State) (n : Nat) (r : Result), s.Inv → exec (.jbPlay n) s = .next t → t.results = s.results ++ [r] →
    ∀ (j : Nat) (b : Byte), r.dout[j]? = some b →
      Memory.read s.jb.ring ((s.jb.rd + j) % s.cfg.cap.toNat) = some b

/-- R123: over any run of commands without a JB_RESET, from a state that meets the invariant, the bytes played followed by
the bytes still held are the bytes held at the start followed by the bytes stored. From an empty buffer: what has been
played is the beginning of what has been stored, in order, and the buffer holds the rest, COUNT bytes. -/
def Obligations.RunsAreFirstInFirstOut : Prop :=
  ∀ (cmds : List (Word × List Byte)) (s : State) (f : Flow),
    s.Inv → (∀ c ∈ cmds, decode c.1 ≠ .command .jbReset) → flow cmds s = some f →
      f.played ++ contents f.last = contents s ++ f.stored ∧ (contents f.last).length = f.last.jb.count.toNat

/-- R151: while PHASE is PREFILL, any number of JB_PLAYs changes nothing: each returns `NOT_STARTED(0)`. -/
def Obligations.PrefillStallsWithoutStores : Prop :=
  ∀ (s : State) (ns : List Nat), s.jb.phase = .prefill → (∀ n ∈ ns, n < 2 ^ 16) →
    s.script = ns.map (fun n => HostAction.command (encode (.jbPlay n)) []) → s.din = [] →
      runSteps ns.length s = .next { s with
        script := []
        results := s.results ++
          List.replicate ns.length { status := .notStarted, count := 0, value := 0, dout := [] } }

/-- R152, R114: prefill can always complete: from a state that meets the invariant, a host that offers nonempty frames to
JB_FILL, at least as many as the bytes still missing, brings the block to PLAYING. -/
def Obligations.PrefillCompletes : Prop :=
  ∀ (s : State) (frames : List (List Byte)),
    s.Inv → s.jb.phase = .prefill → (∀ f ∈ frames, 1 ≤ f.length ∧ f.length < 2 ^ 16) →
    s.cfg.prefillFrames.toNat * s.cfg.frameBytes.toNat ≤ s.jb.count.toNat + frames.length →
    s.script = fillScript frames →
      ∃ t, runSteps frames.length s = .next t ∧ t.jb.phase = .playing

/-! ## The assembler -/

/-- R82: the pseudo-instructions' words. -/
def Obligations.PseudoInstructionsExpand : Prop :=
  ∀ c : Cfg,
    (expand c .avail).map encode = some 0x200B0000 ∧ (expand c .free).map encode = some 0x200C0000 ∧
    (expand c .underflows).map encode = some 0x200D0000 ∧ (expand c .jbstat).map encode = some 0x200E0000 ∧
    (expand c .getseq).map encode = some 0x20000000 ∧ (expand c .getts).map encode = some 0x20010000 ∧
    (expand c .drain).map encode = some 0x02000000 ∧
    (c.frameBytes.toNat ≤ 65535 → (expand c .playframe).map encode = some (0x12000000 + c.frameBytes)) ∧
    (65535 < c.frameBytes.toNat → expand c .playframe = none)

/-- R83: the printed form of every well-formed command's word: its mnemonic, then the operand in decimal, or the register's
name when the index is assigned. -/
def Obligations.DisassemblyPrintsCommands : Prop :=
  ∀ n : Nat, n < 2 ^ 16 →
    disassemble (encode .nop) = "NOP" ∧ disassemble (encode .jbReset) = "JB_RESET" ∧
    disassemble (encode (.encode n)) = "ENCODE " ++ Nat.repr n ∧
    disassemble (encode (.decode n)) = "DECODE " ++ Nat.repr n ∧
    disassemble (encode (.jbWrite n)) = "JB_WRITE " ++ Nat.repr n ∧
    disassemble (encode (.jbFill n)) = "JB_FILL " ++ Nat.repr n ∧
    disassemble (encode (.jbPlay n)) = "JB_PLAY " ++ Nat.repr n ∧
    (∀ name, registerNames[n]? = some name → disassemble (encode (.rdreg n)) = "RDREG " ++ name) ∧
    (0x0F ≤ n → n < 2 ^ 8 → disassemble (encode (.rdreg n)) = "RDREG " ++ Nat.repr n)
end

