-- ==== Sys2Proof/Laws/Encoding.lean ====
section
/-!
SUPPORT. The fields of a packed command word, and a word as the pack of its fields (spec 30 R66).
-/

namespace Sys2Proof.Laws

theorem toNat_packFields (op sub len : Nat) (ho : op < 2 ^ 8) (hs : sub < 2 ^ 8) (hl : len < 2 ^ 16) :
    (packFields op sub len).toNat = op * 2 ^ 24 + sub * 2 ^ 16 + len := by
  simp only [packFields, BitVec.toNat_append, BitVec.toNat_ofNat]
  rw [Nat.mod_eq_of_lt ho, Nat.mod_eq_of_lt hs, Nat.mod_eq_of_lt hl]
  rw [← Nat.shiftLeft_add_eq_or_of_lt hs, ← Nat.shiftLeft_add_eq_or_of_lt hl]
  simp only [Nat.shiftLeft_eq]
  omega

theorem opField_eq (w : Word) : opField w = w.toNat / 2 ^ 24 := by
  have := w.isLt
  simp only [opField, BitVec.extractLsb'_toNat, Nat.shiftRight_eq_div_pow]
  omega

theorem subField_eq (w : Word) : subField w = w.toNat / 2 ^ 16 % 2 ^ 8 := by
  simp only [subField, BitVec.extractLsb'_toNat, Nat.shiftRight_eq_div_pow]

theorem lenField_eq (w : Word) : lenField w = w.toNat % 2 ^ 16 := by
  simp [lenField, BitVec.extractLsb'_toNat]

theorem opField_lt (w : Word) : opField w < 2 ^ 8 := (w.extractLsb' 24 8).isLt

theorem subField_lt (w : Word) : subField w < 2 ^ 8 := (w.extractLsb' 16 8).isLt

theorem lenField_lt (w : Word) : lenField w < 2 ^ 16 := (w.extractLsb' 0 16).isLt

theorem opField_packFields {op sub len : Nat} (ho : op < 2 ^ 8) (hs : sub < 2 ^ 8) (hl : len < 2 ^ 16) :
    opField (packFields op sub len) = op := by
  rw [opField_eq, toNat_packFields op sub len ho hs hl]; omega

theorem subField_packFields {op sub len : Nat} (ho : op < 2 ^ 8) (hs : sub < 2 ^ 8) (hl : len < 2 ^ 16) :
    subField (packFields op sub len) = sub := by
  rw [subField_eq, toNat_packFields op sub len ho hs hl]; omega

theorem lenField_packFields {op sub len : Nat} (ho : op < 2 ^ 8) (hs : sub < 2 ^ 8) (hl : len < 2 ^ 16) :
    lenField (packFields op sub len) = len := by
  rw [lenField_eq, toNat_packFields op sub len ho hs hl]; omega

/-- A word is the pack of its three fields. -/
theorem packFields_fields (w : Word) : packFields (opField w) (subField w) (lenField w) = w := by
  apply BitVec.eq_of_toNat_eq
  rw [toNat_packFields _ _ _ (opField_lt w) (subField_lt w) (lenField_lt w), opField_eq, subField_eq, lenField_eq]
  have := w.isLt
  omega

/-- Decoding a packed word reads back the fields it was packed from. -/
theorem decode_packFields {op sub len : Nat} (ho : op < 2 ^ 8) (hs : sub < 2 ^ 8) (hl : len < 2 ^ 16) :
    decode (packFields op sub len) = decodeFields op sub len := by
  rw [decode, opField_packFields ho hs hl, subField_packFields ho hs hl, lenField_packFields ho hs hl]

/-- The fields that make each command (30 R69). -/
theorem decodeFields_eq_command {op sub len : Nat} {i : Instr} (h : decodeFields op sub len = .command i) :
    (op = 0x00 ∧ sub = 0 ∧ len = 0 ∧ i = .nop) ∨ (op = 0x01 ∧ sub = 0 ∧ i = .encode len) ∨
    (op = 0x02 ∧ sub = 0 ∧ i = .decode len) ∨ (op = 0x10 ∧ sub = 0 ∧ i = .jbWrite len) ∨
    (op = 0x11 ∧ sub = 0 ∧ i = .jbFill len) ∨ (op = 0x12 ∧ sub = 0 ∧ i = .jbPlay len) ∨
    (op = 0x1F ∧ sub = 0 ∧ len = 0 ∧ i = .jbReset) ∨ (op = 0x20 ∧ len = 0 ∧ i = .rdreg sub) := by
  unfold decodeFields decodeBare decodeLen at h
  (repeat' split at h) <;> cases h <;> simp_all

/-- Two words with the same fields are the same word. -/
theorem word_ext {w w' : Word} (ho : opField w = opField w') (hs : subField w = subField w')
    (hl : lenField w = lenField w') : w = w' := by
  rw [← packFields_fields w, ← packFields_fields w', ho, hs, hl]

end Sys2Proof.Laws
end

