-- ==== Sys2Proof/Laws/Memory.lean ====
section
/-!
SUPPORT. The laws of bytes by address: a read after a write, the canonical form, and what a run of ring stores leaves.
-/

namespace Sys2Proof.Laws

open Sys2Proof.Machine

@[simp] theorem read_nil (a : Nat) : Memory.read [] a = none := rfl

theorem read_cons (c : Host.Cell) (m : List Host.Cell) (a : Nat) :
    Memory.read (c :: m) a = if c.1 = a then some c.2 else Memory.read m a := rfl

theorem write_cons (c : Host.Cell) (m : List Host.Cell) (a : Nat) (b : Byte) :
    Memory.write (c :: m) a b = if a < c.1 then (a, b) :: c :: m
      else if a = c.1 then (a, b) :: m else c :: Memory.write m a b := rfl

@[simp] theorem read_write_same (m : List Host.Cell) (a : Nat) (b : Byte) :
    Memory.read (Memory.write m a b) a = some b := by
  induction m with
  | nil => simp [Memory.write, read_cons]
  | cons c m ih =>
    rw [write_cons]
    split
    · simp [read_cons]
    · split
      · simp [read_cons]
      · rename_i h
        simp [read_cons, Ne.symm h, ih]

theorem read_write_other (m : List Host.Cell) {a a' : Nat} (b : Byte) (h : a' ≠ a) :
    Memory.read (Memory.write m a b) a' = Memory.read m a' := by
  induction m with
  | nil => simp [Memory.write, read_cons, Ne.symm h]
  | cons c m ih =>
    rw [write_cons]
    split
    · simp [read_cons, Ne.symm h]
    · split
      · rename_i heq
        subst heq
        simp [read_cons, Ne.symm h]
      · simp [read_cons, ih]

/-- A write keeps an index's byte or gives it one. -/
theorem read_write_isSome (m : List Host.Cell) (a a' : Nat) (b : Byte)
    (h : (Memory.read m a').isSome = true) : (Memory.read (Memory.write m a b) a').isSome = true := by
  by_cases e : a' = a
  · simp [e]
  · rwa [read_write_other m b e]

/-- The indices that a write leaves listed. -/
theorem mem_write {m : List Host.Cell} {a : Nat} {b : Byte} {c : Host.Cell} (h : c ∈ Memory.write m a b) :
    c = (a, b) ∨ c ∈ m := by
  induction m with
  | nil => simpa [Memory.write] using h
  | cons d m ih =>
    rw [write_cons] at h
    split at h
    · simpa using h
    · split at h
      · rcases List.mem_cons.mp h with h | h
        · exact .inl h
        · exact .inr (List.mem_cons_of_mem _ h)
      · rcases List.mem_cons.mp h with h | h
        · exact .inr (h ▸ List.mem_cons_self)
        · exact (ih h).imp_right (List.mem_cons_of_mem _)

/-- A write keeps the canonical form. -/
theorem write_wf {m : List Host.Cell} (a : Nat) (b : Byte) (h : Memory.wf m) : Memory.wf (Memory.write m a b) := by
  induction m with
  | nil => simp [Memory.write, Memory.wf]
  | cons c m ih =>
    obtain ⟨hc, hm⟩ := List.pairwise_cons.mp h
    rw [write_cons]
    split
    · rename_i hlt
      refine List.pairwise_cons.mpr ⟨fun d hd => ?_, h⟩
      rcases List.mem_cons.mp hd with rfl | hd
      · exact hlt
      · exact Nat.lt_trans hlt (hc d hd)
    · split
      · rename_i heq
        exact List.pairwise_cons.mpr ⟨fun d hd => heq ▸ hc d hd, hm⟩
      · rename_i hlt hne
        refine List.pairwise_cons.mpr ⟨fun d hd => ?_, ih hm⟩
        rcases mem_write hd with rfl | hd
        · show c.1 < a
          omega
        · exact hc d hd

@[simp] theorem storeBytes_nil (cap : Nat) (ring : List Host.Cell) (pos : Nat) :
    storeBytes cap ring pos [] = ring := rfl

@[simp] theorem storeBytes_cons (cap : Nat) (ring : List Host.Cell) (pos : Nat) (b : Byte) (bs : List Byte) :
    storeBytes cap ring pos (b :: bs) = storeBytes cap (Memory.write ring (pos % cap) b) (pos + 1) bs := rfl

/-- Stores keep the canonical form. -/
theorem storeBytes_wf (cap : Nat) {ring : List Host.Cell} (pos : Nat) (bs : List Byte) (h : Memory.wf ring) :
    Memory.wf (storeBytes cap ring pos bs) := by
  induction bs generalizing ring pos with
  | nil => exact h
  | cons b bs ih => exact ih _ (write_wf _ _ h)

/-- Stores stay within the ring's indices. -/
theorem storeBytes_in_cap {cap : Nat} (hcap : 0 < cap) {ring : List Host.Cell} (pos : Nat) (bs : List Byte)
    (h : ∀ c ∈ ring, c.1 < cap) : ∀ c ∈ storeBytes cap ring pos bs, c.1 < cap := by
  induction bs generalizing ring pos with
  | nil => exact h
  | cons b bs ih =>
    refine ih _ fun c hc => ?_
    rcases mem_write hc with rfl | hc
    · exact Nat.mod_lt _ hcap
    · exact h c hc

/-- Stores keep an index's byte or give it one. -/
theorem storeBytes_isSome (cap : Nat) {ring : List Host.Cell} (pos : Nat) (bs : List Byte) {a : Nat}
    (h : (Memory.read ring a).isSome = true) : (Memory.read (storeBytes cap ring pos bs) a).isSome = true := by
  induction bs generalizing ring pos with
  | nil => exact h
  | cons b bs ih => exact ih _ (read_write_isSome _ _ _ _ h)

/-- An index that no byte is stored to keeps what it holds. -/
theorem read_storeBytes_other (cap : Nat) (ring : List Host.Cell) (pos : Nat) (bs : List Byte) {a : Nat}
    (h : ∀ j < bs.length, a ≠ (pos + j) % cap) :
    Memory.read (storeBytes cap ring pos bs) a = Memory.read ring a := by
  induction bs generalizing ring pos with
  | nil => rfl
  | cons b bs ih =>
    rw [storeBytes_cons, ih]
    · exact read_write_other _ _ (by simpa using h 0 (by simp))
    · intro j hj
      have := h (j + 1) (by simpa using hj)
      rwa [show pos + (j + 1) = pos + 1 + j by omega] at this

/-- Two positions less than a ring's length apart are different indices. -/
theorem mod_ne_of_lt {cap pos j : Nat} (h0 : 0 < j) (h1 : j < cap) : pos % cap ≠ (pos + j) % cap := by
  intro h
  have hc : 0 < cap := by omega
  have a := Nat.div_add_mod pos cap
  have b := Nat.div_add_mod (pos + j) cap
  rw [← h] at b
  have : cap * ((pos + j) / cap) = cap * (pos / cap) + j := by omega
  rcases Nat.lt_or_ge (pos / cap) ((pos + j) / cap) with hl | hl
  · have := Nat.mul_le_mul_left cap hl
    rw [Nat.mul_succ] at this
    omega
  · have := Nat.mul_le_mul_left cap hl
    omega

/-- The index that byte `j` is stored to holds that byte, when the bytes do not overrun the ring. -/
theorem read_storeBytes_at {cap : Nat} (ring : List Host.Cell) (pos : Nat) {bs : List Byte} (hfit : bs.length ≤ cap)
    {j : Nat} (hj : j < bs.length) : Memory.read (storeBytes cap ring pos bs) ((pos + j) % cap) = some bs[j] := by
  induction bs generalizing ring pos j with
  | nil => simp at hj
  | cons b bs ih =>
    rw [storeBytes_cons]
    simp only [List.length_cons] at hfit hj
    cases j with
    | zero =>
      rw [read_storeBytes_other]
      · simp
      · intro i hi
        have := mod_ne_of_lt (cap := cap) (pos := pos) (j := i + 1) (by omega) (by omega)
        rwa [show pos + (i + 1) = pos + 1 + i by omega] at this
    | succ j =>
      rw [show pos + (j + 1) = pos + 1 + j by omega, ih _ _ (by omega) (by omega)]
      simp

theorem ringRead_eq_of_read_eq {jb jb' : JitterBuffer} {a : Nat} (h : Memory.read jb'.ring a = Memory.read jb.ring a) :
    ringRead jb' a = ringRead jb a := by
  unfold ringRead; rw [h]

theorem ringRead_of_read_some {jb : JitterBuffer} {a : Nat} {b : Byte} (h : Memory.read jb.ring a = some b) :
    ringRead jb a = b := by
  unfold ringRead; rw [h]

@[simp] theorem fetchBytes_length (s : State) (k : Nat) : (fetchBytes s k).length = k := by simp [fetchBytes]

@[simp] theorem fetchBytes_get (s : State) (k j : Nat) (h : j < (fetchBytes s k).length) :
    (fetchBytes s k)[j] = ringRead s.jb ((s.jb.rd + j) % s.cfg.cap.toNat) := by simp [fetchBytes]

end Sys2Proof.Laws
end

