-- ==== Sys2Proof/Laws/State.lean ====
section
/-!
SUPPORT. One lemma per field per update of the state: what `answer`, `latch`, `afterReset`, `emptied` and `updatePhase`
leave in each field.
-/

namespace Sys2Proof.Laws

open Sys2Proof.Machine

variable (r : Result) (s : State) (rest : List HostAction) (din : List Byte) (c : Cfg) (jb : JitterBuffer)
  (ssrcInit : Word) (seqInit : Half) (tsInit : Word)

@[simp] theorem answer_cfg : (answer r s).cfg = s.cfg := rfl
@[simp] theorem answer_session : (answer r s).session = s.session := rfl
@[simp] theorem answer_jb : (answer r s).jb = s.jb := rfl
@[simp] theorem answer_din : (answer r s).din = [] := rfl
@[simp] theorem answer_script : (answer r s).script = s.script := rfl
@[simp] theorem answer_results : (answer r s).results = s.results ++ [r] := rfl

@[simp] theorem latch_cfg : (latch rest din s).cfg = s.cfg := rfl
@[simp] theorem latch_session : (latch rest din s).session = s.session := rfl
@[simp] theorem latch_jb : (latch rest din s).jb = s.jb := rfl
@[simp] theorem latch_din : (latch rest din s).din = din := rfl
@[simp] theorem latch_script : (latch rest din s).script = rest := rfl
@[simp] theorem latch_results : (latch rest din s).results = s.results := rfl

@[simp] theorem afterReset_cfg : (afterReset c ssrcInit seqInit tsInit s).cfg = c := rfl
@[simp] theorem afterReset_session : (afterReset c ssrcInit seqInit tsInit s).session =
    { seq := seqInit, ts := tsInit, ssrc := ssrcInit } := rfl
@[simp] theorem afterReset_jb : (afterReset c ssrcInit seqInit tsInit s).jb =
    { ring := [], rd := 0, wr := 0, count := 0, phase := initialPhase c, underflow := 0 } := rfl
@[simp] theorem afterReset_din : (afterReset c ssrcInit seqInit tsInit s).din = [] := rfl
@[simp] theorem afterReset_script : (afterReset c ssrcInit seqInit tsInit s).script = s.script := rfl
@[simp] theorem afterReset_results : (afterReset c ssrcInit seqInit tsInit s).results = s.results := rfl

@[simp] theorem emptied_ring : (emptied c jb).ring = jb.ring := rfl
@[simp] theorem emptied_rd : (emptied c jb).rd = 0 := rfl
@[simp] theorem emptied_wr : (emptied c jb).wr = 0 := rfl
@[simp] theorem emptied_count : (emptied c jb).count = 0 := rfl
@[simp] theorem emptied_underflow : (emptied c jb).underflow = 0 := rfl
@[simp] theorem emptied_phase : (emptied c jb).phase = initialPhase c := rfl

@[simp] theorem updatePhase_ring : (updatePhase c jb).ring = jb.ring := by unfold updatePhase; split <;> rfl
@[simp] theorem updatePhase_rd : (updatePhase c jb).rd = jb.rd := by unfold updatePhase; split <;> rfl
@[simp] theorem updatePhase_wr : (updatePhase c jb).wr = jb.wr := by unfold updatePhase; split <;> rfl
@[simp] theorem updatePhase_count : (updatePhase c jb).count = jb.count := by unfold updatePhase; split <;> rfl
@[simp] theorem updatePhase_underflow : (updatePhase c jb).underflow = jb.underflow := by
  unfold updatePhase; split <;> rfl

/-- `update_phase()` says PLAYING exactly when playback had begun or the threshold is reached (41 R107). -/
theorem updatePhase_phase : (updatePhase c jb).phase =
    if jb.phase = .prefill ∧ prefillBytes c ≤ jb.count.toNat then .playing else jb.phase := by
  unfold updatePhase; split <;> rfl

/-- `State.reset` is what a reset with the reference configuration and the free draws leaves (10 R44). -/
theorem reset_is_resetBlock : State.reset =
    afterReset Config.reference Config.ssrcInit Config.seqInit Config.tsInit State.reset := rfl

end Sys2Proof.Laws
end

