-- ==== Sys2Proof/Laws/Ops.lean ====
section
/-!
SUPPORT. What each shared operation, each command and a step can do, said once: the cases a proof splits on instead of
unfolding the machine.
-/

namespace Sys2Proof.Laws

open Sys2Proof.Machine

/-- A presentation completes exactly when its DIN has the required length. -/
theorem perform_eq_next {ok : Bool} {t t' : State} : perform ok t = .next t' ↔ ok = true ∧ t = t' := by
  cases ok <;> simp [perform]

theorem perform_eq_refused {ok : Bool} {t : State} {r : Refusal} :
    perform ok t = .refused r ↔ ok = false ∧ r = .malformedPresentation := by
  cases ok
  · exact ⟨fun h => ⟨rfl, by injection h with h; exact h.symm⟩, fun h => by rw [h.2]; rfl⟩
  · exact ⟨fun h => (nomatch h), fun h => (nomatch h.1)⟩

@[simp] theorem perform_true (t : State) : perform true t = .next t := rfl
@[simp] theorem perform_false (t : State) : perform false t = .refused .malformedPresentation := rfl

/-- A reset completes exactly when its configuration is well formed (00 R10). -/
theorem resetBlock_eq_next {c : Cfg} {a : Word} {b : Half} {d : Word} {s t : State} :
    resetBlock c a b d s = .next t ↔ configOk c = true ∧ afterReset c a b d s = t := by
  unfold resetBlock; split <;> simp_all

theorem resetBlock_eq_refused {c : Cfg} {a : Word} {b : Half} {d : Word} {s : State} {r : Refusal} :
    resetBlock c a b d s = .refused r ↔ configOk c = false ∧ r = .illFormedConfiguration := by
  unfold resetBlock
  split
  · rename_i hc
    exact ⟨fun h => (nomatch h), fun h => by simp [hc] at h⟩
  · rename_i hc
    exact ⟨fun h => ⟨by simpa using hc, by injection h with h; exact h.symm⟩, fun h => by rw [h.2]⟩

/-- The legal ranges that a well-formed configuration meets (00 R10). -/
theorem configOk_iff (c : Cfg) : configOk c = true ↔
    c.pt.toNat ≤ 127 ∧ 1 ≤ c.sampleRate.toNat ∧ 1 ≤ c.sampleWidth.toNat ∧ 1 ≤ c.rtpClock.toNat ∧ 1 ≤ c.cap.toNat ∧
      1 ≤ c.frameBytes.toNat ∧ c.frameBytes.toNat ≤ c.cap.toNat ∧ prefillBytes c ≤ c.cap.toNat := by
  simp [configOk, and_assoc]

theorem cap_pos {s : State} (h : s.Inv) : 0 < s.cfg.cap.toNat := ((configOk_iff _).mp h.cfg_ok).2.2.2.2.1

theorem accepted_le (n : Nat) (s : State) : accepted n s ≤ n := Nat.min_le_left _ _

theorem accepted_le_free (n : Nat) (s : State) : accepted n s ≤ free s := Nat.min_le_right _ _

theorem accepted_le_cap (n : Nat) (s : State) : accepted n s ≤ s.cfg.cap.toNat :=
  Nat.le_trans (accepted_le_free n s) (Nat.sub_le _ _)

/-- The occupancy after a store is the exact sum: it fits 32 bits in every state. -/
theorem storedJb_count (n : Nat) (s : State) :
    (storedJb n s).count.toNat = s.jb.count.toNat + accepted n s := by
  have h1 := accepted_le_free n s
  have h2 := s.cfg.cap.isLt
  have h3 := s.jb.count.isLt
  simp only [storedJb, updatePhase_count, BitVec.toNat_ofNat, free] at *
  omega

@[simp] theorem storedJb_rd (n : Nat) (s : State) : (storedJb n s).rd = s.jb.rd := by simp [storedJb]
@[simp] theorem storedJb_wr (n : Nat) (s : State) :
    (storedJb n s).wr = (s.jb.wr + accepted n s) % s.cfg.cap.toNat := by simp [storedJb]
@[simp] theorem storedJb_underflow (n : Nat) (s : State) : (storedJb n s).underflow = s.jb.underflow := by simp [storedJb]
@[simp] theorem storedJb_ring (n : Nat) (s : State) : (storedJb n s).ring =
    storeBytes s.cfg.cap.toNat s.jb.ring s.jb.wr (s.din.take (accepted n s)) := by simp [storedJb]

/-- The phase after a store (41 R107). -/
theorem storedJb_phase (n : Nat) (s : State) : (storedJb n s).phase =
    if s.jb.phase = .prefill ∧ prefillBytes s.cfg ≤ s.jb.count.toNat + accepted n s then .playing
    else s.jb.phase := by
  have h := storedJb_count n s
  simp only [storedJb, updatePhase_count] at h
  rw [storedJb, updatePhase_phase, h]

theorem played_le (n : Nat) (s : State) : played n s ≤ n := Nat.min_le_left _ _

theorem played_le_count (n : Nat) (s : State) : played n s ≤ s.jb.count.toNat := Nat.min_le_right _ _

/-- The occupancy after a tick is the exact difference. -/
theorem playedJb_count (n : Nat) (s : State) :
    (playedJb n s).count.toNat = s.jb.count.toNat - played n s := by
  have h3 := s.jb.count.isLt
  simp only [playedJb, BitVec.toNat_ofNat]
  omega

@[simp] theorem playedJb_ring (n : Nat) (s : State) : (playedJb n s).ring = s.jb.ring := rfl
@[simp] theorem playedJb_wr (n : Nat) (s : State) : (playedJb n s).wr = s.jb.wr := rfl
@[simp] theorem playedJb_phase (n : Nat) (s : State) : (playedJb n s).phase = s.jb.phase := rfl
@[simp] theorem playedJb_rd (n : Nat) (s : State) :
    (playedJb n s).rd = (s.jb.rd + played n s) % s.cfg.cap.toNat := rfl

/-- What a command leaves of the buffer: everything, or a store, or a tick in PLAYING, or the emptied buffer. -/
inductive BufferEffect (s : State) : JitterBuffer → Prop where
  | kept : BufferEffect s s.jb
  | stored (n : Nat) (h : s.din.length = n) : BufferEffect s (storedJb n s)
  | ticked (n : Nat) (h : s.jb.phase = .playing) : BufferEffect s (playedJb n s)
  | emptied : BufferEffect s (emptied s.cfg s.jb)

/-- What a completed command can do: it answers once, keeps the configuration and the script, and leaves the buffer by
one of four effects. -/
theorem exec_cases {i : Instr} {s t : State} (h : exec i s = .next t) :
    t.cfg = s.cfg ∧ t.script = s.script ∧ t.din = [] ∧ t.session.ssrc = s.session.ssrc ∧
      (∃ r, t.results = s.results ++ [r]) ∧ BufferEffect s t.jb := by
  cases i with
  | nop =>
    obtain ⟨-, rfl⟩ := perform_eq_next.mp h
    exact ⟨rfl, rfl, rfl, rfl, ⟨_, rfl⟩, .kept⟩
  | encode len =>
    obtain ⟨-, rfl⟩ := perform_eq_next.mp h
    split <;> exact ⟨rfl, rfl, rfl, rfl, ⟨_, rfl⟩, .kept⟩
  | decode capacity =>
    obtain ⟨-, rfl⟩ := perform_eq_next.mp h
    exact ⟨rfl, rfl, rfl, rfl, ⟨_, rfl⟩, .kept⟩
  | jbWrite len =>
    obtain ⟨hd, rfl⟩ := perform_eq_next.mp h
    exact ⟨rfl, rfl, rfl, rfl, ⟨_, rfl⟩, .stored len (by simpa [dinOk] using hd)⟩
  | jbFill len =>
    obtain ⟨hd, rfl⟩ := perform_eq_next.mp h
    split
    · exact ⟨rfl, rfl, rfl, rfl, ⟨_, rfl⟩, .stored len (by simpa [dinOk] using hd)⟩
    · exact ⟨rfl, rfl, rfl, rfl, ⟨_, rfl⟩, .kept⟩
  | jbPlay len =>
    obtain ⟨-, rfl⟩ := perform_eq_next.mp h
    split
    · exact ⟨rfl, rfl, rfl, rfl, ⟨_, rfl⟩, .kept⟩
    · rename_i hp
      exact ⟨rfl, rfl, rfl, rfl, ⟨_, rfl⟩, .ticked len hp⟩
  | jbReset =>
    obtain ⟨-, rfl⟩ := perform_eq_next.mp h
    exact ⟨rfl, rfl, rfl, rfl, ⟨_, rfl⟩, .emptied⟩
  | rdreg index =>
    obtain ⟨-, rfl⟩ := perform_eq_next.mp h
    exact ⟨rfl, rfl, rfl, rfl, ⟨_, rfl⟩, .kept⟩

/-- What a step can do: wait, reset, run a command, or answer an ILLEGAL word. -/
theorem step_cases {s t : State} (h : step s = .next t) :
    (s.script = [] ∧ t = s) ∨
    (∃ c a b d rest, s.script = .reset c a b d :: rest ∧ configOk c = true ∧
      t = afterReset c a b d { s with script := rest }) ∨
    (∃ w din rest i, s.script = .command w din :: rest ∧ decode w = .command i ∧
      exec i (latch rest din s) = .next t) ∨
    (∃ w din rest why, s.script = .command w din :: rest ∧ decode w = .illegal why ∧ din.length ≤ maxDin ∧
      t = answer (mkResult .illegalCommand 0 []) (latch rest din s)) := by
  unfold step at h
  split at h
  · rename_i hs
    simp only [idle, Host.Outcome.next.injEq] at h
    exact .inl ⟨hs, h.symm⟩
  · rename_i c a b d rest hs
    obtain ⟨hc, rfl⟩ := resetBlock_eq_next.mp h
    exact .inr (.inl ⟨c, a, b, d, rest, hs, hc, rfl⟩)
  · rename_i w din rest hs
    split at h
    · rename_i i hi
      exact .inr (.inr (.inl ⟨w, din, rest, i, hs, hi, h⟩))
    · rename_i why hw
      obtain ⟨hd, rfl⟩ := perform_eq_next.mp h
      exact .inr (.inr (.inr ⟨w, din, rest, why, hs, hw, of_decide_eq_true hd, rfl⟩))

end Sys2Proof.Laws
end

