-- ==== Sys2Proof/Laws/PerInstr.lean ====
section
/-!
SUPPORT. The family `OpField`: the OP field of every command's word is the command's opcode (spec 30 R71), whatever its
operand.
-/

namespace Sys2Proof.Laws

/-- The opcode of a command (30 R71). -/
def opcodeOf : Instr → Nat
  | .nop => 0x00
  | .encode _ => 0x01
  | .decode _ => 0x02
  | .jbWrite _ => 0x10
  | .jbFill _ => 0x11
  | .jbPlay _ => 0x12
  | .jbReset => 0x1F
  | .rdreg _ => 0x20

/-- The OP field of a well-formed command's word is its opcode. -/
def OpField.Statement (i : Instr) : Prop := i.WellFormed → opField (encode i) = opcodeOf i

theorem OpField.nop : OpField.Statement .nop := fun _ => by decide

theorem OpField.encode (len : Nat) : OpField.Statement (.encode len) := fun h =>
  opField_packFields (by decide) (by decide) (by simpa [Instr.WellFormed, Instr.wellFormed] using h)

theorem OpField.decode (capacity : Nat) : OpField.Statement (.decode capacity) := fun h =>
  opField_packFields (by decide) (by decide) (by simpa [Instr.WellFormed, Instr.wellFormed] using h)

theorem OpField.jbWrite (len : Nat) : OpField.Statement (.jbWrite len) := fun h =>
  opField_packFields (by decide) (by decide) (by simpa [Instr.WellFormed, Instr.wellFormed] using h)

theorem OpField.jbFill (len : Nat) : OpField.Statement (.jbFill len) := fun h =>
  opField_packFields (by decide) (by decide) (by simpa [Instr.WellFormed, Instr.wellFormed] using h)

theorem OpField.jbPlay (len : Nat) : OpField.Statement (.jbPlay len) := fun h =>
  opField_packFields (by decide) (by decide) (by simpa [Instr.WellFormed, Instr.wellFormed] using h)

theorem OpField.jbReset : OpField.Statement .jbReset := fun _ => by decide

theorem OpField.rdreg (index : Nat) : OpField.Statement (.rdreg index) := fun h =>
  opField_packFields (by decide) (by simpa [Instr.WellFormed, Instr.wellFormed] using h) (by decide)

end Sys2Proof.Laws
end

