-- ==== Sys2Proof/Laws/Run.lean ====
section
/-!
SUPPORT. Runs, one step at a time, and the step of a presentation.
-/

namespace Sys2Proof.Laws

open Sys2Proof.Machine

@[simp] theorem runSteps_zero (s : State) : runSteps 0 s = .next s := rfl

/-- A run whose first step completes goes on from there. -/
theorem runSteps_succ {k : Nat} {s t : State} (h : step s = .next t) : runSteps (k + 1) s = runSteps k t := by
  simp only [runSteps, h]

/-- `runSteps` is the host's run of the machine. -/
theorem runSteps_eq (k : Nat) (s : State) : Host.Core.run core k s = runSteps k s := by
  induction k generalizing s with
  | zero => rfl
  | succ k ih =>
    have h : core.step s = step s := rfl
    simp only [Host.Core.run, runSteps, h]
    cases step s with
    | next t => exact ih t
    | fault r => rfl
    | refused r => rfl

/-- The step of a presentation whose word is a command (30 R69). -/
theorem step_command {s : State} {w : Word} {din : List Byte} {rest : List HostAction} {i : Instr}
    (hs : s.script = .command w din :: rest) (hw : decode w = .command i) : step s = exec i (latch rest din s) := by
  unfold step
  rw [hs]
  simp only [hw]

/-- The invariant speaks of the block alone: it holds whatever is at the port. -/
theorem inv_of_block_eq {s t : State} (h : s.Inv) (hc : t.cfg = s.cfg) (hj : t.jb = s.jb) : t.Inv := by
  obtain ⟨h1, h2, h3, h4, h5, h6, h7, h8⟩ := h
  rw [← hj, ← hc] at *
  exact ⟨h1, h2, h3, h4, h5, h6, h7, h8⟩

end Sys2Proof.Laws
end

