-- ==== Sys2Proof/Tests/Slice0.lean ====
section
/-!
SUPPORT. Tests against the spec's own vectors (95_test_vectors.md and the examples of files 40 to 42), and for every
statement with hypotheses a witness that meets them.
-/

namespace Sys2Proof.Tests

open Sys2Proof.Machine

/-! ## States to test on -/

/-- The configuration SMALL of 41 and 95. -/
def smallCfg : Cfg := { Config.reference with cap := 8, frameBytes := 2, prefillFrames := 2, refillFrames := 1 }

/-- A block just after reset with the given configuration, SEQ and TS, and SSRC 0xDEADBEEF (95). -/
def fresh (c : Cfg) (seq : Half) (ts : Word) : State where
  cfg := c
  session := { seq := seq, ts := ts, ssrc := 0xDEADBEEF }
  jb := { ring := [], rd := 0, wr := 0, count := 0, phase := initialPhase c, underflow := 0 }
  din := []
  script := []
  results := []

/-- SMALL just after reset. -/
def small : State := fresh smallCfg 0 0

/-- SMALL in PLAYING with bytes 1, 2, 3 stored from index 6 across the end of the ring. -/
def wrapped : State :=
  { small with jb :=
      { ring := [(0, 3), (6, 1), (7, 2)], rd := 6, wr := 1, count := 3, phase := .playing, underflow := 5 } }

/-- SMALL in PLAYING with one byte, below one frame, and UNDERFLOW at its maximum (95 2.8). -/
def starved : State :=
  { small with jb :=
      { ring := [(0, 1), (1, 2), (2, 3), (3, 4)], rd := 3, wr := 4, count := 1, phase := .playing,
        underflow := 0xFFFFFFFF } }

/-- `s` with a DIN at the port. -/
def withDin (din : List Byte) (s : State) : State := { s with din := din }

/-- The next state of an outcome. -/
def next? : Host.Outcome State Fault Refusal → Option State
  | .next t => some t
  | .fault _ => none
  | .refused _ => none

/-- The refusal of an outcome. -/
def refusal? : Host.Outcome State Fault Refusal → Option Refusal
  | .next _ => none
  | .fault _ => none
  | .refused r => some r

/-- The last result in an outcome's next state. -/
def result? (o : Host.Outcome State Fault Refusal) : Option Result := (next? o).bind fun t => t.results.getLast?

/-- The buffer's registers in an outcome's next state: RD, WR, COUNT, PHASE, UNDERFLOW (95's columns). -/
def columns (o : Host.Outcome State Fault Refusal) : Option (Nat × Nat × Nat × Phase × Nat) :=
  (next? o).map fun t => (t.jb.rd, t.jb.wr, t.jb.count.toNat, t.jb.phase, t.jb.underflow.toNat)

/-! ## Well-formedness (30 R66): an ill-formed term for each check -/

theorem test_wellFormed_refuses_encode : (Instr.encode 65536).wellFormed = false := by decide
theorem test_wellFormed_refuses_decode : (Instr.decode 65536).wellFormed = false := by decide
theorem test_wellFormed_refuses_jbWrite : (Instr.jbWrite 65536).wellFormed = false := by decide
theorem test_wellFormed_refuses_jbFill : (Instr.jbFill 65536).wellFormed = false := by decide
theorem test_wellFormed_refuses_jbPlay : (Instr.jbPlay 65536).wellFormed = false := by decide
theorem test_wellFormed_refuses_rdreg : (Instr.rdreg 256).wellFormed = false := by decide
theorem test_wellFormed_takes_the_bounds :
    (Instr.encode 65535).wellFormed = true ∧ (Instr.rdreg 255).wellFormed = true ∧ Instr.nop.wellFormed = true := by decide

/-! ## Decoding (95 2.12 and the words of 95 2.1 to 2.11) -/

theorem test_decode_words :
    decode 0x01000140 = .command (.encode 320) ∧ decode 0x02000100 = .command (.decode 256) ∧
    decode 0x10000006 = .command (.jbWrite 6) ∧ decode 0x11000001 = .command (.jbFill 1) ∧
    decode 0x12000008 = .command (.jbPlay 8) ∧ decode 0x200C0000 = .command (.rdreg 0x0C) := by decide

theorem test_decode_illegal_fields :
    decode 0x00000001 = .illegal .nonzeroLen ∧ decode 0x00010000 = .illegal .nonzeroSub ∧
    decode 0x02800000 = .illegal .nonzeroSub ∧ decode 0x10010000 = .illegal .nonzeroSub ∧
    decode 0x11FF0001 = .illegal .nonzeroSub ∧ decode 0x12010000 = .illegal .nonzeroSub ∧
    decode 0x1F000001 = .illegal .nonzeroLen ∧ decode 0x1F010000 = .illegal .nonzeroSub ∧
    decode 0x20000001 = .illegal .nonzeroLen := by decide

theorem test_decode_reserved_opcodes :
    decode 0x03000000 = .illegal .reservedOpcode ∧ decode 0x0F000000 = .illegal .reservedOpcode ∧
    decode 0x1E000000 = .illegal .reservedOpcode ∧ decode 0x21000000 = .illegal .reservedOpcode ∧
    decode 0xFF000000 = .illegal .reservedOpcode := by decide

theorem test_opcode_map_rows_do_not_overlap :
    opcodeMap.Pairwise fun a b => (a.pattern ^^^ b.pattern) &&& (a.mask &&& b.mask) ≠ 0 := by decide

/-! ## One step of each command -/

/-- 40 R91's example and 95 V1. -/
theorem test_encode_packet :
    result? (exec (.encode 2) (withDin [0xAA, 0xBB] (fresh Config.reference 0x1234 0x10))) =
      some { status := .ok, count := 14, value := 0,
             dout := [0x80, 0x00, 0x12, 0x34, 0x00, 0x00, 0x00, 0x10, 0xDE, 0xAD, 0xBE, 0xEF, 0xAA, 0xBB] } := by decide

/-- 95 V11 with a shorter payload: 441 bytes are cut to 49, a ninth of them, and so is the increment, 450 / 9 = 50; SEQ and
TS wrap as in V2. -/
theorem test_encode_wraps :
    (next? (exec (.encode 49) (withDin (List.replicate 49 0)
      (fresh { Config.reference with sampleRate := 44100, rtpClock := 90000 } 0xFFFF 0xFFFFFFFF)))).map
        (fun t => (t.session.seq, t.session.ts)) = some (0x0000, 0x00000031) := by decide

/-- 95 V14. -/
theorem test_decode_truncates :
    result? (exec (.decode 1) (withDin
      [0x80, 0x00, 0x12, 0x34, 0x00, 0x00, 0x00, 0x10, 0xDE, 0xAD, 0xBE, 0xEF, 0xAA, 0xBB] small)) =
      some { status := .truncated, count := 1, value := 0, dout := [0xAA] } := by decide

/-- 95 V19: the length test comes before truncation. -/
theorem test_decode_short :
    result? (exec (.decode 0) (withDin [0x80, 0x00, 0x12, 0x34, 0x00] small)) =
      some { status := .shortDatagram, count := 0, value := 0, dout := [] } := by decide

/-- 95 2.3 step 2 from the state after step 1: five of six bytes are stored, WR wraps, prefill ends. -/
theorem test_jbWrite_overflows :
    columns (exec (.jbWrite 6) (withDin [4, 5, 6, 7, 8, 9]
      { small with jb := { small.jb with ring := [(0, 1), (1, 2), (2, 3)], wr := 3, count := 3 } })) =
      some (0, 0, 8, .playing, 0) := by decide

/-- 20 R48: a write that crosses the end of the ring goes on at index 0; the listed indices rise. -/
theorem test_jbWrite_crosses_end :
    (next? (exec (.jbWrite 3) (withDin [0xB0, 0xB1, 0xB2]
      { small with jb := { small.jb with rd := 6, wr := 6 } }))).map (fun t => t.jb.ring) =
      some [(0, 0xB2), (6, 0xB0), (7, 0xB1)] := by decide

/-- 95 2.5 step 2: a JB_FILL that overflows in prefill. -/
theorem test_jbFill_overflows_in_prefill :
    result? (exec (.jbFill 5) (withDin [6, 7, 8, 9, 10]
      { fresh { smallCfg with prefillFrames := 4 } 0 0 with
        jb := { small.jb with ring := [(0, 1), (1, 2), (2, 3), (3, 4), (4, 5)], wr := 5, count := 5 } })) =
      some { status := .overflow, count := 3, value := 0, dout := [] } := by decide

/-- 41 R113's example, second command: COUNT = 3 is not below REFILL_BYTES. -/
theorem test_jbFill_not_needed :
    result? (exec (.jbFill 2) (withDin [9, 9] wrapped)) =
      some { status := .notNeeded, count := 0, value := 0, dout := [] } := by decide

/-- 95 2.7 step 3's rule: a request beyond COUNT ≥ FRAME_BYTES is OK; the read crosses the end of the ring. -/
theorem test_jbPlay_crosses_end :
    result? (exec (.jbPlay 9) wrapped) = some { status := .ok, count := 3, value := 0, dout := [1, 2, 3] } := by decide

/-- 95 2.8 step 1: a tick of no bytes still counts an underflow, and the counter wraps. -/
theorem test_jbPlay_counter_wraps : columns (exec (.jbPlay 0) starved) = some (3, 4, 1, .playing, 0) := by decide

/-- 95 2.9 step 4. -/
theorem test_jbReset_clears : columns (exec .jbReset wrapped) = some (0, 0, 0, .prefill, 0) := by decide

/-- 41 R121: the ring's bytes stay. -/
theorem test_jbReset_keeps_ring : (next? (exec .jbReset wrapped)).map (fun t => t.jb.ring) = some wrapped.jb.ring := by decide

/-- 95 2.11: JB_FREE of the reference configuration. -/
theorem test_rdreg_free :
    result? (exec (.rdreg 0x0C) (fresh Config.reference 0 0)) =
      some { status := .ok, count := 0, value := 19200, dout := [] } := by decide

/-- 95 P3 step 5: JB_STATUS of a full ring in PLAYING. -/
theorem test_rdreg_status_full :
    result? (exec (.rdreg 0x0E) { wrapped with jb := { wrapped.jb with count := 8 } }) =
      some { status := .ok, count := 0, value := 0b1001, dout := [] } := by decide

/-- 95 2.12. -/
theorem test_nop : result? (exec .nop small) = some { status := .ok, count := 0, value := 0, dout := [] } := by decide

/-- 95 2.12: an ILLEGAL word discards its DIN. -/
theorem test_step_illegal :
    result? (step (presenting 0x03000000 [0x99] small)) =
      some { status := .illegalCommand, count := 0, value := 0, dout := [] } := by decide

/-- 95 2.13: a payload of the wrong length, and a reset with PREFILL_BYTES = 10 > CAP. -/
theorem test_step_refuses :
    refusal? (step (presenting 0x01000004 [1, 2, 3] small)) = some .malformedPresentation ∧
    refusal? (step { small with script := [.reset { smallCfg with prefillFrames := 5 } 0 0 0] }) =
      some .illFormedConfiguration := by decide

/-- The first step after reset runs the word placed by `withFetchWord`. -/
theorem test_withFetchWord_runs :
    result? (step (State.reset.withFetchWord 32 0x200B0000)) =
      some { status := .ok, count := 0, value := 0, dout := [] } := by decide

/-! ## Assembly (30 R81 to R83; 95 P2, P4) -/

theorem test_assemble_line :
    assembleLine smallCfg "JB_FILL 2 data=[0x10, 0x11] ; a frame" = some [.command 0x11000002 [0x10, 0x11]] := by decide

theorem test_assemble_pseudo :
    assembleProgram smallCfg ["PLAYFRAME", "JBSTAT", "RDREG 0x0F"] =
      some [.command 0x12000002 [], .command 0x200E0000 [], .command 0x200F0000 []] := by decide

theorem test_disassemble : disassemble 0x200E0000 = "RDREG JB_STATUS" ∧ disassemble 0x01010002 = ".word 0x01010002" := by
  decide

/-! ## Witnesses: for each statement with hypotheses, a state and operands that meet them all -/

theorem small_inv : small.Inv := by constructor <;> decide

theorem wrapped_inv : wrapped.Inv := by constructor <;> decide

theorem witness_DecodeEncodeRoundTrip : (Instr.jbPlay 65535).WellFormed ∧ (Instr.rdreg 255).WellFormed := by decide

theorem witness_DecodedWordReencodes : decode 0x0100FFFF = .command (.encode 65535) := by decide

theorem witness_StepRunsDecodedCommand :
    (presenting 0x10000001 [7] small).script = [.command 0x10000001 [7]] ∧
    decode 0x10000001 = .command (.jbWrite 1) := by decide

theorem witness_IllegalWordChangesNoState :
    (presenting 0x03000000 [0x99] small).script = [.command 0x03000000 [0x99]] ∧
    decode 0x03000000 = .illegal .reservedOpcode ∧ [(0x99 : Byte)].length ≤ 65535 := by decide

theorem witness_WaitsWithoutHostAction : small.script = [] := by decide

theorem witness_RefusesDinOfWrongLength :
    (withDin [1, 2, 3] small).din.length ≠ 4 ∧ 65535 < (withDin (List.replicate 65536 0) small).din.length := by
  refine ⟨by decide, ?_⟩
  show 65535 < (List.replicate 65536 (0 : Byte)).length
  rw [List.length_replicate]
  decide

theorem witness_EveryCommandReturnsOneResult :
    presentationOk 0x02000001 [1, 2, 3] = true ∧ presentationOk 0xFFFFFFFF [1, 2] = true ∧
    presentationOk 0x12000002 [] = true := by decide

/-- 95 2.10: the three cases of PHASE and of the status word. -/
theorem witness_ResetSetsEveryRegister :
    let s : State := { small with script := [.reset { smallCfg with pt := 127, prefillFrames := 4 } 1 2 3] }
    s.script = [.reset { smallCfg with pt := 127, prefillFrames := 4 } 1 2 3] ∧
    configOk { smallCfg with pt := 127, prefillFrames := 4 } = true ∧
    configOk { smallCfg with prefillFrames := 0 } = true ∧
    configOk { smallCfg with prefillFrames := 0, refillFrames := 0 } = true ∧
    jbStatus small = 0b0110 ∧ jbStatus (fresh { smallCfg with prefillFrames := 0 } 0 0) = 0b0111 ∧
    jbStatus (fresh { smallCfg with prefillFrames := 0, refillFrames := 0 } 0 0) = 0b0101 := by decide

theorem witness_ResetRefusesIllFormedConfiguration :
    configOk { smallCfg with pt := 128 } = false ∧ configOk { smallCfg with sampleRate := 0 } = false ∧
    configOk { smallCfg with sampleWidth := 0 } = false ∧ configOk { smallCfg with rtpClock := 0 } = false ∧
    configOk { smallCfg with frameBytes := 0 } = false ∧ configOk { smallCfg with frameBytes := 9 } = false ∧
    configOk { smallCfg with prefillFrames := 5 } = false := by decide

theorem witness_EveryResetEstablishesInvariant :
    next? (step { wrapped with script := [.reset smallCfg 0xDEADBEEF 0 0] }) = some small := by decide

theorem witness_StepKeepsInvariant : wrapped.Inv ∧ (next? (step (presenting 0x12000002 [] wrapped))).isSome = true :=
  ⟨wrapped_inv, by decide⟩

/-- Each clause: a JB_RESET is no ENCODE, and an ENCODE is no buffer command. -/
theorem witness_RegistersChangeOnlyThroughTheirCommands :
    decode 0x1F000000 = .command .jbReset ∧ (next? (step (presenting 0x1F000000 [] wrapped))).isSome = true ∧
    decode 0x01000001 = .command (.encode 1) ∧ isBufferCommand (.encode 1) = false ∧
    (next? (step (presenting 0x01000001 [5] wrapped))).isSome = true := by decide

theorem witness_FramerAndBufferCommandsCommute :
    decode 0x01000001 = .command (.encode 1) ∧ decode 0x12000002 = .command (.jbPlay 2) ∧
    isFramerCommand (.encode 1) = true ∧ isBufferCommand (.jbPlay 2) = true ∧
    presentationOk 0x01000001 [5] = true ∧ presentationOk 0x12000002 [] = true := by decide

theorem witness_UnderflowCountsOncePerTick :
    decode 0x12000001 = .command (.jbPlay 1) ∧ (next? (step (presenting 0x12000001 [] starved))).isSome = true ∧
    starved.jb.phase = .playing ∧ starved.jb.count.toNat < starved.cfg.frameBytes.toNat ∧
    ¬ wrapped.jb.count.toNat < wrapped.cfg.frameBytes.toNat ∧
    (next? (step (presenting 0x12000001 [] wrapped))).isSome = true := by decide

theorem witness_PhaseChangesOnlyAtThreshold :
    columns (step (presenting 0x10000004 [1, 2, 3, 4] small)) = some (0, 4, 4, .playing, 0) ∧
    columns (step (presenting 0x12000003 [] wrapped)) = some (1, 1, 0, .playing, 5) := by decide

theorem witness_NopReturnsOk :
    small.din = [] ∧ (0x00FFFFFF : Word).toNat < 0x01000000 ∧ (0x00FFFFFF : Word) ≠ 0x00000000 := by decide

theorem witness_JbResetEmptiesBuffer : wrapped.din = [] := by decide

theorem witness_PlayTakesFromFront : wrapped.din = [] ∧ wrapped.jb.phase = .playing := by decide

theorem witness_StatusWordBits : small.Inv ∧ small.din = [] := ⟨small_inv, by decide⟩

theorem witness_RdregReadsEachRegister : wrapped.Inv ∧ wrapped.din = [] ∧
    (next? (exec (.rdreg 0x0E) small)).isSome = true ∧ (next? (exec (.rdreg 0x0F) small)).isSome = true ∧
    (next? (exec (.rdreg 0xFF) small)).isSome = true := ⟨wrapped_inv, by decide⟩

theorem witness_AvailAndFreeAddUpToCapacity : wrapped.Inv ∧ wrapped.din = [] := ⟨wrapped_inv, by decide⟩

theorem witness_EncodeEmitsPacket :
    configOk small.cfg = true ∧ (withDin [5] small).din.length = 1 ∧ (withDin [] small).din.length = 0 := by decide

theorem witness_MarkerBitIsClear :
    configOk (fresh { smallCfg with pt := 127 } 0 0).cfg = true ∧
    (withDin [5] (fresh { smallCfg with pt := 127 } 0 0)).din.length = 1 := by decide

theorem witness_TimestampCountsSamples :
    configOk small.cfg = true ∧ small.cfg.rtpClock = small.cfg.sampleRate ∧ (withDin [5, 6, 7] small).din.length = 3 := by
  decide

theorem witness_ConsecutiveEncodesCount :
    configOk { small with script := encodeScript [[1], [2, 3]] }.cfg = true ∧
    (∀ p ∈ [[(1 : Byte)], [2, 3]], 1 ≤ p.length ∧ p.length < 2 ^ 16) ∧
    { small with script := encodeScript [[1], [2, 3]] }.script = encodeScript [[1], [2, 3]] := by decide

/-- A datagram for each clause: 12 bytes, 14 bytes above the capacity 1, and 14 bytes at the capacity 2. -/
theorem witness_DecodeStripsHeader :
    (List.replicate 12 (0 : Byte)).length ≤ 12 ∧ (1 < (List.replicate 14 (0 : Byte)).length - 12) ∧
    ¬ 2 < (List.replicate 14 (0 : Byte)).length - 12 := by decide

theorem witness_DecodeIgnoresHeaderBytes :
    (List.replicate 12 (0xFF : Byte) ++ [0x99]).drop 12 = (List.replicate 12 (0 : Byte) ++ [0x99]).drop 12 ∧
    (List.replicate 12 (0xFF : Byte) ++ [0x99]).length = (List.replicate 12 (0 : Byte) ++ [0x99]).length ∧
    (List.replicate 12 (0 : Byte) ++ [0x99]).length ≤ 65535 := by decide

theorem witness_DecodeUndoesEncode : (withDin [5, 6] small).din.length = 2 ∧ 1 ≤ 2 ∧ 2 + 12 ≤ 65535 := by decide

theorem witness_JbWriteStoresBytes : (withDin [4, 5] wrapped).Inv ∧ (withDin [4, 5] wrapped).din.length = 2 :=
  ⟨Laws.inv_of_block_eq wrapped_inv rfl rfl, by decide⟩

/-- Both clauses: NEED_FILL is 1 just after reset and 0 with three bytes stored in PLAYING. -/
theorem witness_JbFillFollowsPolicy :
    ((withDin [5, 6] small).Inv ∧ (withDin [5, 6] small).din.length = 2 ∧ needFill small = true) ∧
    (withDin [5, 6] wrapped).Inv ∧ (withDin [5, 6] wrapped).din.length = 2 ∧ needFill wrapped = false :=
  ⟨⟨Laws.inv_of_block_eq small_inv rfl rfl, by decide⟩, Laws.inv_of_block_eq wrapped_inv rfl rfl, by decide⟩

theorem starvedInv : { starved with din := [5, 6] }.Inv := by constructor <;> decide

theorem witness_JbFillMakesProgress :
    { starved with din := [5, 6] }.Inv ∧ starved.jb.phase = .playing ∧ 2 ≤ starved.cfg.frameBytes.toNat ∧
    starved.cfg.frameBytes.toNat ≤ starved.cfg.cap.toNat - starved.jb.count.toNat ∧
    starved.jb.count.toNat < starved.cfg.refillFrames.toNat * starved.cfg.frameBytes.toNat ∧
    small.Inv ∧ small.jb.phase = .prefill :=
  ⟨starvedInv, by decide, by decide, by decide, by decide, small_inv, by decide⟩

/-- Both clauses. -/
theorem witness_JbPlayReturnsOldestBytes :
    small.Inv ∧ small.din = [] ∧ small.jb.phase = .prefill ∧ wrapped.Inv ∧ wrapped.din = [] ∧
    wrapped.jb.phase = .playing := ⟨small_inv, by decide, by decide, wrapped_inv, by decide, by decide⟩

theorem witness_IdempotentCommands : wrapped.din = [] ∧ (∃ k, Instr.rdreg 3 = .rdreg k) := ⟨by decide, 3, rfl⟩

theorem witness_StoreAppendsToContents :
    (withDin [4, 5] wrapped).Inv ∧ (withDin [4, 5] wrapped).din.length = 2 ∧ contents wrapped = [1, 2, 3] :=
  ⟨Laws.inv_of_block_eq wrapped_inv rfl rfl, by decide, by decide⟩

theorem witness_PlayReturnsOnlyWrittenBytes :
    wrapped.Inv ∧ (result? (exec (.jbPlay 2) wrapped)).map (fun r => r.dout[1]?) = some (some 2) :=
  ⟨wrapped_inv, by decide⟩

/-- 95 P3's first commands: a store, a tick, and a store across the end of the ring. -/
theorem witness_RunsAreFirstInFirstOut :
    small.Inv ∧
    (∀ c ∈ [((0x10000006 : Word), [(0xA0 : Byte), 0xA1, 0xA2, 0xA3, 0xA4, 0xA5]), (0x12000005, [])],
      decode c.1 ≠ .command .jbReset) ∧
    (flow [(0x10000006, [0xA0, 0xA1, 0xA2, 0xA3, 0xA4, 0xA5]), (0x12000005, [])] small).map
      (fun f => (f.stored, f.played)) =
      some ([0xA0, 0xA1, 0xA2, 0xA3, 0xA4, 0xA5], [0xA0, 0xA1, 0xA2, 0xA3, 0xA4]) :=
  ⟨small_inv, by decide, by decide⟩

theorem witness_PrefillStallsWithoutStores :
    small.jb.phase = .prefill ∧ (∀ n ∈ [2, 0, 320], n < 2 ^ 16) ∧
    { small with script := [2, 0, 320].map fun n => HostAction.command (encode (.jbPlay n)) [] }.din = [] := by decide

theorem witness_PrefillCompletes :
    small.Inv ∧ small.jb.phase = .prefill ∧
    (∀ f ∈ [[(1 : Byte)], [2], [3], [4, 5]], 1 ≤ f.length ∧ f.length < 2 ^ 16) ∧
    small.cfg.prefillFrames.toNat * small.cfg.frameBytes.toNat ≤ small.jb.count.toNat + 4 :=
  ⟨small_inv, by decide, by decide, by decide⟩

theorem witness_PseudoInstructionsExpand :
    smallCfg.frameBytes.toNat ≤ 65535 ∧ 65535 < { smallCfg with frameBytes := 65536 }.frameBytes.toNat := by decide

theorem witness_DisassemblyPrintsCommands :
    (14 < 2 ^ 16 ∧ registerNames[14]? = some "JB_STATUS") ∧ 0x0F ≤ 15 ∧ 15 < 2 ^ 8 := by decide

end Sys2Proof.Tests
end

section
/-!
What a step is for each head of the host's script, and the statements of `00_scope.md` that follow from it.
-/

namespace Sys2Proof.Proofs

open Sys2Proof.Machine

theorem step_of_script_nil {s : State} (hs : s.script = []) : step s = .next s := by
  simp only [step, hs, idle]

theorem step_of_script_reset {s : State} {c : Cfg} {ssrcInit : Word} {seqInit : Half} {tsInit : Word}
    {rest : List HostAction} (hs : s.script = .reset c ssrcInit seqInit tsInit :: rest) :
    step s = resetBlock c ssrcInit seqInit tsInit { s with script := rest } := by
  simp only [step, hs]

theorem step_of_decode_command {s : State} {w : Word} {din : List Byte} {rest : List HostAction} {i : Instr}
    (hs : s.script = .command w din :: rest) (hi : decode w = .command i) :
    step s = exec i (latch rest din s) := by
  simp only [step, hs, hi]

/-- The complement of the legal ranges (00 R10). A capacity of 0 needs no case of its own: then FRAME_BYTES is 0 or
above CAP. -/
theorem configOk_eq_false_iff (c : Cfg) : configOk c = false ↔
    127 < c.pt.toNat ∨ c.sampleRate = 0 ∨ c.sampleWidth = 0 ∨ c.rtpClock = 0 ∨ c.frameBytes = 0 ∨
      c.cap.toNat < c.frameBytes.toNat ∨ c.cap.toNat < c.prefillFrames.toNat * c.frameBytes.toNat := by
  have zero_iff : ∀ {w : Nat} (x : BitVec w), x = 0 ↔ x.toNat = 0 := fun x => by simp [BitVec.toNat_eq]
  rw [← Bool.not_eq_true, Laws.configOk_iff, prefillBytes, zero_iff, zero_iff, zero_iff, zero_iff]
  omega

/-- Settles O8. -/
theorem waitsWithoutHostAction : Obligations.WaitsWithoutHostAction :=
  fun _ => step_of_script_nil

/-- Settles O6: the state after `latch` is the one the statement writes out. -/
theorem stepRunsDecodedCommand : Obligations.StepRunsDecodedCommand :=
  fun _ _ _ _ _ => step_of_decode_command

/-- Settles O13: the step is the reset, which is refused exactly when the configuration check fails. -/
theorem resetRefusesIllFormedConfiguration : Obligations.ResetRefusesIllFormedConfiguration := by
  intro s c ssrcInit seqInit tsInit rest hs
  rw [step_of_script_reset hs, Laws.resetBlock_eq_refused, and_iff_left rfl]
  exact configOk_eq_false_iff c

end Sys2Proof.Proofs
end

section
/-!
What each command leaves of the session and of the buffer, and the statements on which command changes which register
(spec 10 R21, R32).
-/

namespace Sys2Proof.Proofs

open Sys2Proof.Machine

/-- What the step of a presentation does: it runs the decoded command, or answers the ILLEGAL word. -/
theorem step_presentation_cases {s t : State} {w : Word} {din : List Byte} {rest : List HostAction}
    (hs : s.script = .command w din :: rest) (h : step s = .next t) :
    (∃ i, decode w = .command i ∧ exec i (latch rest din s) = .next t) ∨
    (∃ why, decode w = .illegal why ∧ t = answer (mkResult .illegalCommand 0 []) (latch rest din s)) := by
  cases hw : decode w with
  | command i => exact .inl ⟨i, rfl, step_of_decode_command hs hw ▸ h⟩
  | illegal why =>
    simp only [step, hs, hw] at h
    obtain ⟨-, rfl⟩ := Laws.perform_eq_next.mp h
    exact .inr ⟨why, rfl, rfl⟩

/-- Only ENCODE advances the session. -/
theorem exec_session {i : Instr} {s t : State} (h : exec i s = .next t) :
    t.session = s.session ∨ ∃ len, i = .encode len := by
  cases i with
  | encode len => exact .inr ⟨len, rfl⟩
  | nop | decode _ | jbWrite _ | jbReset | rdreg _ =>
    obtain ⟨-, rfl⟩ := Laws.perform_eq_next.mp h
    exact .inl rfl
  | jbFill _ | jbPlay _ =>
    obtain ⟨-, rfl⟩ := Laws.perform_eq_next.mp h
    split <;> exact .inl rfl

/-- `Laws.BufferEffect` with the command that has each effect. -/
theorem exec_jb {i : Instr} {s t : State} (h : exec i s = .next t) :
    t.jb = s.jb ∨
    (∃ n, (i = .jbWrite n ∨ i = .jbFill n) ∧ t.jb = storedJb n s) ∨
    (∃ n, i = .jbPlay n ∧ t.jb = playedJb n s) ∨
    (i = .jbReset ∧ t.jb = emptied s.cfg s.jb) := by
  cases i with
  | nop | decode _ | rdreg _ =>
    obtain ⟨-, rfl⟩ := Laws.perform_eq_next.mp h
    exact .inl rfl
  | encode _ =>
    obtain ⟨-, rfl⟩ := Laws.perform_eq_next.mp h
    split <;> exact .inl rfl
  | jbWrite n =>
    obtain ⟨-, rfl⟩ := Laws.perform_eq_next.mp h
    exact .inr (.inl ⟨n, .inl rfl, rfl⟩)
  | jbFill n =>
    obtain ⟨-, rfl⟩ := Laws.perform_eq_next.mp h
    split
    · exact .inr (.inl ⟨n, .inr rfl, rfl⟩)
    · exact .inl rfl
  | jbPlay n =>
    obtain ⟨-, rfl⟩ := Laws.perform_eq_next.mp h
    split
    · exact .inl rfl
    · exact .inr (.inr (.inl ⟨n, rfl, rfl⟩))
  | jbReset =>
    obtain ⟨-, rfl⟩ := Laws.perform_eq_next.mp h
    exact .inr (.inr (.inr ⟨rfl, rfl⟩))

theorem exec_jb_of_not_isBufferCommand {i : Instr} {s t : State} (h : exec i s = .next t)
    (hi : isBufferCommand i = false) : t.jb = s.jb := by
  obtain hj | ⟨n, rfl | rfl, -⟩ | ⟨n, rfl, -⟩ | ⟨rfl, -⟩ := exec_jb h
  · exact hj
  all_goals cases hi

/-- Settles O17. -/
theorem registersChangeOnlyThroughTheirCommands : Obligations.RegistersChangeOnlyThroughTheirCommands := by
  intro s t w din rest hs h
  obtain ⟨i, hw, hi⟩ | ⟨why, -, rfl⟩ := step_presentation_cases hs h
  · obtain ⟨hcfg, -, -, hssrc, -, -⟩ := Laws.exec_cases hi
    refine ⟨hcfg, hssrc, fun hne => ?_, fun hbuf => ?_⟩
    · obtain hses | ⟨len, rfl⟩ := exec_session hi
      · exact hses
      · exact absurd hw (hne len)
    · exact (exec_jb_of_not_isBufferCommand hi (hbuf i hw)).trans (Laws.latch_jb ..)
  · exact ⟨rfl, rfl, fun _ => rfl, fun _ => rfl⟩

/-- A store never ends PLAYING. -/
theorem storedJb_phase_of_playing {s : State} (n : Nat) (h : s.jb.phase = .playing) :
    (storedJb n s).phase = .playing := by
  simp [Laws.storedJb_phase, h]

/-- A store that ends PREFILL has reached the threshold (41 R107). -/
theorem prefillBytes_le_of_storedJb_playing {s : State} {n : Nat} (h : s.jb.phase = .prefill)
    (ht : (storedJb n s).phase = .playing) : prefillBytes s.cfg ≤ (storedJb n s).count.toNat := by
  rw [Laws.storedJb_phase] at ht
  rw [Laws.storedJb_count]
  split at ht
  next hreach => exact hreach.2
  next => exact absurd (h.symm.trans ht) (by decide)

/-- The two rules of PHASE hold of a presentation that keeps it. -/
theorem phase_rules_of_eq {p q : Phase} {P : Prop} (h : q = p) :
    (p = .playing → q = .playing) ∧ (p = .prefill → q = .playing → P) := by
  subst h
  exact ⟨id, fun hpre hplay => absurd (hpre.symm.trans hplay) (by decide)⟩

/-- Settles O20: of the effects on the buffer, only a store's `update_phase()` touches PHASE. -/
theorem phaseChangesOnlyAtThreshold : Obligations.PhaseChangesOnlyAtThreshold := by
  intro s t w din rest hs hne h
  obtain ⟨i, hw, hi⟩ | ⟨why, -, rfl⟩ := step_presentation_cases hs h
  · obtain hj | ⟨n, hstore, hj⟩ | ⟨n, -, hj⟩ | ⟨rfl, -⟩ := exec_jb hi
    · exact phase_rules_of_eq (by rw [hj, Laws.latch_jb])
    · rw [hj, hw]
      refine ⟨storedJb_phase_of_playing (s := latch rest din s) n, fun hp ht =>
        ⟨prefillBytes_le_of_storedJb_playing (s := latch rest din s) hp ht, ?_⟩⟩
      exact hstore.elim (fun hn => .inl ⟨n, congrArg _ hn⟩) (fun hn => .inr ⟨n, congrArg _ hn⟩)
    · exact phase_rules_of_eq (by rw [hj, Laws.playedJb_phase, Laws.latch_jb])
    · exact absurd hw hne
  · exact phase_rules_of_eq rfl

end Sys2Proof.Proofs
end

section
/-!
What the buffer holds after a store and after a tick (spec 10 R28, R35 (d); 41 R108, R116).
-/

namespace Sys2Proof.Proofs

open Sys2Proof.Machine

theorem exec_jbWrite {s : State} {n : Nat} (hlen : s.din.length = n) : exec (.jbWrite n) s = .next (store n s) := by
  simp [exec, execJbWrite, dinOk, hlen]

theorem exec_jbPlay_of_playing {s : State} (n : Nat) (hd : s.din = []) (hp : s.jb.phase = .playing) :
    exec (.jbPlay n) s = .next (tick n s) := by
  simp [exec, execJbPlay, dinOk, hd, hp]

/-- A completed JB_PLAY returns no byte (in PREFILL), or the bytes from the read cursor onward. -/
theorem exec_jbPlay_dout {s t : State} {n : Nat} {r : Result} (h : exec (.jbPlay n) s = .next t)
    (hr : t.results = s.results ++ [r]) : r.dout = [] ∨ r.dout = fetchBytes s (played n s) := by
  obtain ⟨-, rfl⟩ := Laws.perform_eq_next.mp h
  split at hr <;> obtain rfl := List.singleton_inj.mp (List.append_cancel_left hr)
  · exact .inl rfl
  · exact .inr rfl

theorem count_add_accepted_le_cap {s : State} (h : s.Inv) (n : Nat) :
    s.jb.count.toNat + accepted n s ≤ s.cfg.cap.toNat := by
  have hfree : accepted n s ≤ s.cfg.cap.toNat - s.jb.count.toNat := Laws.accepted_le_free n s
  have hcount := h.count_le_cap
  omega

theorem length_take_accepted {s : State} {n : Nat} (hlen : s.din.length = n) :
    (s.din.take (accepted n s)).length = accepted n s :=
  List.length_take_of_le (hlen ▸ Laws.accepted_le n s)

/-- The write cursor stands behind the stored bytes. -/
theorem wr_add_mod {s : State} (h : s.Inv) (j : Nat) :
    (s.jb.wr + j) % s.cfg.cap.toNat = (s.jb.rd + (s.jb.count.toNat + j)) % s.cfg.cap.toNat := by
  rw [h.wr_eq, Nat.mod_add_mod, Nat.add_assoc]

/-- A store overwrites no stored byte: its bytes and the stored ones together fit the ring. -/
theorem read_storedJb_of_lt_count {s : State} (h : s.Inv) (n : Nat) {i : Nat} (hi : i < s.jb.count.toNat) :
    Memory.read (storedJb n s).ring ((s.jb.rd + i) % s.cfg.cap.toNat) =
      Memory.read s.jb.ring ((s.jb.rd + i) % s.cfg.cap.toNat) := by
  rw [Laws.storedJb_ring]
  refine Laws.read_storeBytes_other _ _ _ _ fun j hj => ?_
  have hroom := count_add_accepted_le_cap h n
  rw [List.length_take] at hj
  rw [wr_add_mod h, show s.jb.rd + (s.jb.count.toNat + j) = s.jb.rd + i + (s.jb.count.toNat + j - i) by omega]
  exact Laws.mod_ne_of_lt (by omega) (by omega)

/-- An accepted byte stands behind the bytes stored before it. -/
theorem read_storedJb_of_lt_accepted {s : State} (h : s.Inv) {n : Nat} (hlen : s.din.length = n) {j : Nat}
    (hj : j < accepted n s) :
    Memory.read (storedJb n s).ring ((s.jb.rd + (s.jb.count.toNat + j)) % s.cfg.cap.toNat) =
      (s.din.take (accepted n s))[j]? := by
  have hacc := length_take_accepted hlen
  have hfit := Laws.accepted_le_cap n s
  rw [Laws.storedJb_ring, ← wr_add_mod h, Laws.read_storeBytes_at _ _ (by omega) (by omega), List.getElem?_eq_getElem]

/-- A longer fetch is a fetch followed by the fetch from the index where it ended. -/
theorem fetchBytes_add {s t : State} {p : Nat} (hc : t.cfg = s.cfg) (hring : t.jb.ring = s.jb.ring)
    (hrd : t.jb.rd = (s.jb.rd + p) % s.cfg.cap.toNat) (q : Nat) :
    fetchBytes s (p + q) = fetchBytes s p ++ fetchBytes t q := by
  have hread (a : Nat) : ringRead t.jb a = ringRead s.jb a := Laws.ringRead_eq_of_read_eq (by rw [hring])
  simp [fetchBytes, List.range_add, hc, hrd, hread, Function.comp_def, Nat.add_assoc]

theorem contents_store {s : State} (h : s.Inv) {n : Nat} (hlen : s.din.length = n) :
    contents (store n s) = contents s ++ s.din.take (accepted n s) := by
  have hacc := length_take_accepted hlen
  have hcount : (store n s).jb.count.toNat = s.jb.count.toNat + accepted n s := Laws.storedJb_count n s
  have hrd : (store n s).jb.rd = s.jb.rd := Laws.storedJb_rd n s
  refine List.ext_getElem (by simp only [contents, Laws.fetchBytes_length, List.length_append, hcount, hacc]) ?_
  intro k hk hk'
  simp only [contents, Laws.fetchBytes_length, hcount] at hk
  simp only [contents, Laws.fetchBytes_get, List.getElem_append, Laws.fetchBytes_length, hrd]
  split
  next hold => exact Laws.ringRead_eq_of_read_eq (read_storedJb_of_lt_count h n hold)
  next hnew =>
    obtain ⟨j, rfl⟩ := Nat.exists_eq_add_of_le (Nat.not_lt.mp hnew)
    refine Laws.ringRead_of_read_some ((read_storedJb_of_lt_accepted h hlen (by omega)).trans ?_)
    rw [List.getElem?_eq_some_iff]
    exact ⟨by omega, by simp⟩

theorem fetchBytes_append_contents_tick (n : Nat) (s : State) :
    fetchBytes s (played n s) ++ contents (tick n s) = contents s := by
  have hle := Laws.played_le_count n s
  have hcount : (tick n s).jb.count.toNat = s.jb.count.toNat - played n s := Laws.playedJb_count n s
  rw [contents, ← fetchBytes_add (s := s) (t := tick n s) (p := played n s) rfl rfl rfl, hcount,
    Nat.add_sub_of_le hle, contents]

/-- In a state that meets the invariant, a byte fetched from the stored ones is one that was written. -/
theorem read_of_fetchBytes_getElem? {s : State} (h : s.Inv) {k j : Nat} {b : Byte} (hk : k ≤ s.jb.count.toNat)
    (hb : (fetchBytes s k)[j]? = some b) : Memory.read s.jb.ring ((s.jb.rd + j) % s.cfg.cap.toNat) = some b := by
  obtain ⟨hj, rfl⟩ := List.getElem?_eq_some_iff.mp hb
  rw [Laws.fetchBytes_length] at hj
  obtain ⟨c, hc⟩ := Option.isSome_iff_exists.mp (h.stored_written j (by omega))
  rw [Laws.fetchBytes_get, Laws.ringRead_of_read_some hc, hc]

/-- Settles O38. -/
theorem storeAppendsToContents : Obligations.StoreAppendsToContents :=
  fun s n h hlen => ⟨store n s, exec_jbWrite hlen, contents_store h hlen⟩

/-- Settles O39. -/
theorem playTakesFromFront : Obligations.PlayTakesFromFront :=
  fun s n hd hp => ⟨tick n s, _, exec_jbPlay_of_playing n hd hp, rfl, fetchBytes_append_contents_tick n s⟩

/-- Settles O40. -/
theorem playReturnsOnlyWrittenBytes : Obligations.PlayReturnsOnlyWrittenBytes := by
  intro s t n r h hexec hr j b hb
  obtain hnone | hdout := exec_jbPlay_dout hexec hr
  · simp [hnone] at hb
  · exact read_of_fetchBytes_getElem? h (Laws.played_le_count n s) (hdout ▸ hb)

end Sys2Proof.Proofs
end

section
/-!
The invariant: every reset establishes it and every step keeps it (spec 10 R35).
-/

namespace Sys2Proof.Proofs

open Sys2Proof.Machine

/-- An empty buffer in the phase that the configuration asks for meets the invariant, whatever its ring lists. -/
theorem inv_of_empty {s : State} (hcfg : configOk s.cfg = true) (hrd : s.jb.rd = 0) (hwr : s.jb.wr = 0)
    (hcount : s.jb.count = 0) (hphase : s.jb.phase = initialPhase s.cfg) (hwf : Memory.wf s.jb.ring)
    (hin : ∀ c ∈ s.jb.ring, c.1 < s.cfg.cap.toNat) : s.Inv where
  cfg_ok := hcfg
  count_le_cap := by simp [hcount]
  rd_lt_cap := by
    obtain ⟨-, -, -, -, hcap, -⟩ := (Laws.configOk_iff _).mp hcfg
    omega
  wr_eq := by simp [hrd, hwr, hcount]
  prefill_below hp := by
    rw [hphase, initialPhase] at hp
    split at hp
    next => cases hp
    next hpos => simpa [hcount] using Nat.pos_of_ne_zero hpos
  ring_wf := hwf
  ring_in_cap := hin
  stored_written i hi := by simp [hcount] at hi

theorem afterReset_inv {c : Cfg} (hc : configOk c = true) (ssrcInit : Word) (seqInit : Half) (tsInit : Word)
    (s : State) : (afterReset c ssrcInit seqInit tsInit s).Inv :=
  inv_of_empty hc rfl rfl rfl rfl List.Pairwise.nil (fun _ h => nomatch h)

theorem emptied_inv {s : State} (h : s.Inv) : State.Inv { s with jb := emptied s.cfg s.jb } :=
  inv_of_empty h.cfg_ok rfl rfl rfl rfl h.ring_wf h.ring_in_cap

/-- A store keeps the invariant: the stored bytes keep theirs, and the accepted ones are written behind them. -/
theorem storedJb_inv {s : State} (h : s.Inv) {n : Nat} (hlen : s.din.length = n) :
    State.Inv { s with jb := storedJb n s } where
  cfg_ok := h.cfg_ok
  count_le_cap := Laws.storedJb_count n s ▸ count_add_accepted_le_cap h n
  rd_lt_cap := by simpa using h.rd_lt_cap
  wr_eq := by
    simp only [Laws.storedJb_wr, Laws.storedJb_rd, Laws.storedJb_count]
    exact wr_add_mod h _
  prefill_below hp := by
    simp only [Laws.storedJb_phase] at hp
    split at hp
    next => cases hp
    next hbelow => simpa [Laws.storedJb_count, hp] using hbelow
  ring_wf := by simpa using Laws.storeBytes_wf _ _ _ h.ring_wf
  ring_in_cap := by simpa using Laws.storeBytes_in_cap (Laws.cap_pos h) _ _ h.ring_in_cap
  stored_written i hi := by
    simp only [Laws.storedJb_count] at hi
    simp only [Laws.storedJb_rd]
    obtain hold | hnew := Nat.lt_or_ge i s.jb.count.toNat
    · rw [read_storedJb_of_lt_count h n hold]
      exact h.stored_written i hold
    · obtain ⟨j, rfl⟩ := Nat.exists_eq_add_of_le hnew
      have hj : j < accepted n s := by omega
      have hn : j < n := Nat.lt_of_lt_of_le hj (Laws.accepted_le n s)
      rw [read_storedJb_of_lt_accepted h hlen hj]
      simp [hj, hlen, hn]

/-- A tick in PLAYING keeps the invariant: it moves the read cursor over the bytes it takes off the occupancy. -/
theorem playedJb_inv {s : State} (h : s.Inv) (n : Nat) (hp : s.jb.phase = .playing) :
    State.Inv { s with jb := playedJb n s } where
  cfg_ok := h.cfg_ok
  count_le_cap := Laws.playedJb_count n s ▸ Nat.le_trans (Nat.sub_le _ _) h.count_le_cap
  rd_lt_cap := Nat.mod_lt _ (Laws.cap_pos h)
  wr_eq := by
    have hle := Laws.played_le_count n s
    simp only [Laws.playedJb_wr, Laws.playedJb_rd, Laws.playedJb_count]
    rw [h.wr_eq, Nat.mod_add_mod, Nat.add_assoc, Nat.add_sub_of_le hle]
  prefill_below hpre := absurd (hp.symm.trans hpre) (by decide)
  ring_wf := h.ring_wf
  ring_in_cap := h.ring_in_cap
  stored_written i hi := by
    simp only [Laws.playedJb_count] at hi
    simp only [Laws.playedJb_ring, Laws.playedJb_rd]
    rw [Nat.mod_add_mod, Nat.add_assoc]
    exact h.stored_written _ (by omega)

theorem bufferEffect_inv {s : State} (h : s.Inv) {jb : JitterBuffer} (he : Laws.BufferEffect s jb) :
    State.Inv { s with jb := jb } := by
  cases he with
  | kept => exact h
  | stored n hlen => exact storedJb_inv h hlen
  | ticked n hp => exact playedJb_inv h n hp
  | emptied => exact emptied_inv h

theorem exec_inv {i : Instr} {s t : State} (h : s.Inv) (hi : exec i s = .next t) : t.Inv := by
  obtain ⟨hcfg, -, -, -, -, heffect⟩ := Laws.exec_cases hi
  exact Laws.inv_of_block_eq (bufferEffect_inv h heffect) hcfg rfl

/-- Settles O16. -/
theorem stepKeepsInvariant : Obligations.StepKeepsInvariant := by
  intro s t h hstep
  have hlatch (rest : List HostAction) (din : List Byte) : (latch rest din s).Inv := Laws.inv_of_block_eq h rfl rfl
  obtain ⟨-, rfl⟩ | ⟨c, a, b, d, rest, -, hc, rfl⟩ | ⟨w, din, rest, i, -, -, hi⟩ | ⟨w, din, rest, -, -, -, -, rfl⟩ :=
    Laws.step_cases hstep
  · exact h
  · exact afterReset_inv hc a b d _
  · exact exec_inv (hlatch rest din) hi
  · exact Laws.inv_of_block_eq (hlatch rest din) rfl rfl

/-- Settles O15. -/
theorem everyResetEstablishesInvariant : Obligations.EveryResetEstablishesInvariant := by
  intro s t c ssrcInit seqInit tsInit rest hs hstep
  obtain ⟨hc, rfl⟩ := Laws.resetBlock_eq_next.mp (step_of_script_reset hs ▸ hstep)
  exact ⟨afterReset_inv hc ssrcInit seqInit tsInit _, rfl, rfl, rfl, Laws.read_nil⟩

/-- Settles O14: `State.reset` is what a reset leaves. -/
theorem stateResetMeetsInvariant : Obligations.StateResetMeetsInvariant := by
  refine ⟨?_, rfl, rfl, rfl⟩
  rw [Laws.reset_is_resetBlock]
  exact afterReset_inv (by decide) _ _ _ _

end Sys2Proof.Proofs
end

section
/-!
JB_STATUS as RDREG reads it, in any state and just after a reset (spec 10 R37 to R40, R44).
-/

namespace Sys2Proof.Proofs

open Sys2Proof.Machine

theorem exec_rdreg_jbStatus {s : State} (hd : s.din = []) : exec (.rdreg 0x0E) s =
    .next (answer { status := .ok, count := 0, value := jbStatus s, dout := [] } s) := by
  simp [exec, execRdreg, dinOk, hd, rdregResult, regValue]

/-- The low four bits of JB_STATUS are the flags, whatever their values (10 R40). -/
theorem jbStatus_getLsbD_low (s : State) : (jbStatus s).getLsbD 0 = playing s ∧ (jbStatus s).getLsbD 1 = needFill s ∧
    (jbStatus s).getLsbD 2 = empty s ∧ (jbStatus s).getLsbD 3 = full s := by
  unfold jbStatus
  generalize playing s = a, needFill s = b, empty s = c, full s = d
  revert a b c d
  decide

theorem jbStatus_getLsbD_high (s : State) {b : Nat} (hb : 4 ≤ b) : (jbStatus s).getLsbD b = false := by
  have h1 := (playing s).toNat_le
  have h2 := (needFill s).toNat_le
  have h3 := (empty s).toNat_le
  have h4 := (full s).toNat_le
  have hpow : 2 ^ 4 ≤ 2 ^ b := Nat.pow_le_pow_right (by decide) hb
  rw [jbStatus, BitVec.getLsbD_ofNat, Nat.testBit_lt_two_pow (by omega), Bool.and_false]

theorem playing_iff (s : State) : playing s = true ↔ s.jb.phase = .playing := decide_eq_true_iff

theorem needFill_iff (s : State) : needFill s = true ↔
    (s.jb.phase = .prefill ∧ s.jb.count.toNat < prefillBytes s.cfg) ∨
    (s.jb.phase = .playing ∧ s.cfg.frameBytes.toNat ≤ free s ∧ s.jb.count.toNat < refillBytes s.cfg) := by
  cases hp : s.jb.phase <;> simp [needFill, hp]

theorem empty_iff (s : State) : empty s = true ↔ s.jb.count.toNat = 0 := by
  simp [empty, BitVec.toNat_eq]

theorem full_iff (s : State) : full s = true ↔ s.jb.count.toNat = s.cfg.cap.toNat := by
  simp [full, BitVec.toNat_eq]

/-- Settles O23. -/
theorem statusWordBits : Obligations.StatusWordBits := by
  intro s _ hd
  obtain ⟨h0, h1, h2, h3⟩ := jbStatus_getLsbD_low s
  refine ⟨_, _, exec_rdreg_jbStatus hd, rfl, rfl, ?_, ?_, ?_, ?_, fun b => jbStatus_getLsbD_high s⟩
  · rw [h0, playing_iff]
  · rw [h1, needFill_iff]; rfl
  · rw [h2, empty_iff]
  · rw [h3, full_iff]

/-- The three values of JB_STATUS after a reset: an empty buffer is not full, and asks for a frame unless both thresholds
are 0 (10 R44). -/
theorem jbStatus_afterReset {c : Cfg} (hc : configOk c = true) (ssrcInit : Word) (seqInit : Half) (tsInit : Word)
    (s : State) : jbStatus (afterReset c ssrcInit seqInit tsInit s) =
      if 0 < prefillBytes c then 0b0110 else if refillBytes c = 0 then 0b0101 else 0b0111 := by
  obtain ⟨-, -, -, -, hcap, -, hframe, -⟩ := (Laws.configOk_iff c).mp hc
  have hfull : full (afterReset c ssrcInit seqInit tsInit s) = false := by
    rw [← Bool.not_eq_true, full_iff]
    exact (Nat.lt_of_lt_of_le Nat.zero_lt_one hcap).ne
  have hempty : empty (afterReset c ssrcInit seqInit tsInit s) = true := rfl
  obtain hpre | hpre := Nat.eq_zero_or_pos (prefillBytes c)
  · obtain hre | hre := Nat.eq_zero_or_pos (refillBytes c)
    · simp [jbStatus, hfull, hempty, playing, needFill, initialPhase, hpre, hre]
    · simp [jbStatus, hfull, hempty, playing, needFill, initialPhase, free, hpre, hre, hframe, Nat.ne_of_gt hre]
  · simp [jbStatus, hfull, hempty, playing, needFill, initialPhase, hpre, Nat.ne_of_gt hpre]

/-- Settles O12. -/
theorem resetSetsEveryRegister : Obligations.ResetSetsEveryRegister := by
  intro s c ssrcInit seqInit tsInit rest hs hpt hrate hwidth hclock hframe hcap hprefill
  have hc : configOk c = true :=
    (Laws.configOk_iff c).mpr ⟨hpt, hrate, hwidth, hclock, Nat.le_trans hframe hcap, hframe, hcap, hprefill⟩
  exact ⟨_, (step_of_script_reset hs).trans (Laws.resetBlock_eq_next.mpr ⟨hc, rfl⟩), rfl, rfl, rfl, rfl, rfl, rfl, rfl,
    _, _, exec_rdreg_jbStatus rfl, rfl, jbStatus_afterReset hc ssrcInit seqInit tsInit _⟩

end Sys2Proof.Proofs
end

section
/-!
The two units read and write disjoint state, so their commands commute; and the idempotent commands (spec 20 R56, R60).
-/

namespace Sys2Proof.Proofs

open Sys2Proof.Machine

/-! ### What each unit reads and writes -/

/-- The framer is independent of the buffer (10 R19): what a framer command returns and leaves of the session is settled
by the configuration, the session and DIN, and it writes nothing else of the block. -/
theorem exec_framerCommand_local {i : Instr} {s : State} (hi : isFramerCommand i = true)
    (hd : dinOk i s.din.length = true) :
    ∃ r f, ∀ t : State, t.cfg = s.cfg → t.session = s.session → t.din = s.din →
      exec i t = .next (answer r { t with session := f }) := by
  cases i with
  | encode len =>
    obtain rfl | hlen := eq_or_ne len 0
    · refine ⟨mkResult .badLength 0 [], s.session, ?_⟩
      rintro ⟨⟩ rfl rfl rfl
      exact Laws.perform_eq_next.mpr ⟨hd, rfl⟩
    · refine ⟨mkResult .ok (len + headerBytes) (rtpHeader s.cfg s.session ++ s.din), advance s.cfg len s.session, ?_⟩
      rintro ⟨⟩ rfl rfl rfl
      exact Laws.perform_eq_next.mpr ⟨hd, if_neg hlen⟩
  | decode capacity =>
    refine ⟨decodeResult capacity s.din, s.session, ?_⟩
    rintro ⟨⟩ rfl rfl rfl
    exact Laws.perform_eq_next.mpr ⟨hd, rfl⟩
  | nop | jbWrite _ | jbFill _ | jbPlay _ | jbReset | rdreg _ => cases hi

/-- The buffer is independent of the framer (10 R19): what a buffer command returns and leaves of the buffer is settled by
the configuration, the buffer and DIN, and it writes nothing else of the block. -/
theorem exec_bufferCommand_local {j : Instr} {s : State} (hj : isBufferCommand j = true)
    (hd : dinOk j s.din.length = true) :
    ∃ r jb, ∀ t : State, t.cfg = s.cfg → t.jb = s.jb → t.din = s.din →
      exec j t = .next (answer r { t with jb := jb }) := by
  cases j with
  | jbWrite n =>
    refine ⟨storeResult n s, storedJb n s, ?_⟩
    rintro ⟨⟩ rfl rfl rfl
    exact Laws.perform_eq_next.mpr ⟨hd, rfl⟩
  | jbFill n =>
    cases hneed : needFill s with
    | true =>
      refine ⟨storeResult n s, storedJb n s, ?_⟩
      rintro ⟨⟩ rfl rfl rfl
      exact Laws.perform_eq_next.mpr ⟨hd, if_pos hneed⟩
    | false =>
      refine ⟨mkResult .notNeeded 0 [], s.jb, ?_⟩
      rintro ⟨⟩ rfl rfl rfl
      exact Laws.perform_eq_next.mpr ⟨hd, if_neg (Bool.eq_false_iff.mp hneed)⟩
  | jbPlay n =>
    cases hp : s.jb.phase with
    | prefill =>
      refine ⟨mkResult .notStarted 0 [], s.jb, ?_⟩
      rintro ⟨⟩ rfl rfl rfl
      exact Laws.perform_eq_next.mpr ⟨hd, by rw [hp]⟩
    | playing =>
      refine ⟨mkResult (if tickUnderflows s then .underflow else .ok) (played n s) (fetchBytes s (played n s)),
        playedJb n s, ?_⟩
      rintro ⟨⟩ rfl rfl rfl
      exact Laws.perform_eq_next.mpr ⟨hd, by rw [hp]; rfl⟩
  | jbReset =>
    refine ⟨mkResult .ok 0 [], emptied s.cfg s.jb, ?_⟩
    rintro ⟨⟩ rfl rfl rfl
    exact Laws.perform_eq_next.mpr ⟨hd, rfl⟩
  | nop | encode _ | decode _ | rdreg _ => cases hj

/-! ### Either order -/

theorem dinOk_of_presentationOk {w : Word} {din : List Byte} {i : Instr} (hw : decode w = .command i)
    (h : presentationOk w din = true) : dinOk i din.length = true := by
  simpa only [presentationOk, hw] using h

/-- Two presentations run one after the other. -/
theorem runSteps_two_commands {s t u : State} {w v : Word} {din dat : List Byte} {i j : Instr}
    (hw : decode w = .command i) (hv : decode v = .command j)
    (hi : exec i (latch [.command v dat] din s) = .next t) (hj : exec j (latch [] dat t) = .next u) :
    runSteps 2 { s with script := [.command w din, .command v dat] } = .next u := by
  have hfirst : step { s with script := [.command w din, .command v dat] } = .next t :=
    (Laws.step_command rfl hw).trans hi
  obtain ⟨-, hscript, -⟩ := Laws.exec_cases hi
  have hsecond : step t = .next u := (Laws.step_command (hscript.trans (Laws.latch_script ..)) hv).trans hj
  exact (Laws.runSteps_succ hfirst).trans (Laws.runSteps_succ hsecond)

/-- Settles O18: neither command touches what the other reads, so each finds the same operands in either order. -/
theorem framerAndBufferCommandsCommute : Obligations.FramerAndBufferCommandsCommute := by
  intro s w v din dat i j hw hv hi hj hwd hvd
  obtain ⟨r, f, hframer⟩ :=
    exec_framerCommand_local (s := latch [] din s) hi (dinOk_of_presentationOk hw hwd)
  obtain ⟨q, jb, hbuffer⟩ :=
    exec_bufferCommand_local (s := latch [] dat s) hj (dinOk_of_presentationOk hv hvd)
  exact ⟨_, _, r, q,
    runSteps_two_commands hw hv (hframer _ rfl rfl rfl) (hbuffer _ rfl rfl rfl),
    runSteps_two_commands hv hw (hbuffer _ rfl rfl rfl) (hframer _ rfl rfl rfl),
    List.append_assoc .., List.append_assoc .., rfl, rfl, rfl⟩

/-! ### Idempotent commands -/

section WithoutDin

variable {s : State} (hd : s.din = [])
include hd

theorem exec_nop : exec .nop s = .next (answer (mkResult .ok 0 []) s) :=
  Laws.perform_eq_next.mpr ⟨by simp [dinOk, hd], rfl⟩

theorem exec_rdreg (k : Nat) : exec (.rdreg k) s = .next (answer (rdregResult s k) s) :=
  Laws.perform_eq_next.mpr ⟨by simp [dinOk, hd], rfl⟩

theorem exec_jbReset : exec .jbReset s = .next (answer (mkResult .ok 0 []) { s with jb := emptied s.cfg s.jb }) :=
  Laws.perform_eq_next.mpr ⟨by simp [dinOk, hd], rfl⟩

end WithoutDin

/-- No register that RDREG selects is at the port (10 R41). -/
@[simp] theorem rdregResult_answer (r : Result) (s : State) (k : Nat) :
    rdregResult (answer r s) k = rdregResult s k := rfl

theorem emptied_emptied (c : Cfg) (jb : JitterBuffer) : emptied c (emptied c jb) = emptied c jb := rfl

/-- Settles O37: the first command leaves DIN empty and everything the second reads as it found it. -/
theorem idempotentCommands : Obligations.IdempotentCommands := by
  rintro s i hd (rfl | rfl | ⟨k, rfl⟩)
  · exact ⟨_, _, _, exec_nop hd, exec_nop rfl, rfl, rfl, rfl, rfl, rfl⟩
  · exact ⟨_, _, _, exec_jbReset hd, exec_jbReset rfl, rfl, rfl, rfl, rfl, emptied_emptied ..⟩
  · exact ⟨_, _, _, exec_rdreg hd k, exec_rdreg rfl k, rfl, by simp, rfl, rfl, rfl⟩

end Sys2Proof.Proofs
end

section
/-!
Decoding and encoding are inverse: a word is a command exactly when its three fields are the command's (spec 30 R66,
R67, R69, R71).
-/

namespace Sys2Proof.Proofs

/-! ### The fields of a command -/

/-- What a command's word holds in SUB (30 R71). -/
def subOf : Instr → Nat
  | .nop => 0
  | .encode _ => 0
  | .decode _ => 0
  | .jbWrite _ => 0
  | .jbFill _ => 0
  | .jbPlay _ => 0
  | .jbReset => 0
  | .rdreg index => index

/-- What a command's word holds in LEN (30 R71). -/
def lenOf : Instr → Nat
  | .nop => 0
  | .encode len => len
  | .decode capacity => capacity
  | .jbWrite len => len
  | .jbFill len => len
  | .jbPlay len => len
  | .jbReset => 0
  | .rdreg _ => 0

theorem encode_eq_packFields (i : Instr) : encode i = packFields (Laws.opcodeOf i) (subOf i) (lenOf i) := by
  cases i <;> rfl

theorem decodeFields_eq_self (i : Instr) : decodeFields (Laws.opcodeOf i) (subOf i) (lenOf i) = .command i := by
  cases i <;> rfl

theorem opcodeOf_lt (i : Instr) : Laws.opcodeOf i < 2 ^ 8 := by
  cases i <;> simp [Laws.opcodeOf]

theorem wellFormed_iff (i : Instr) : i.WellFormed ↔ subOf i < 2 ^ 8 ∧ lenOf i < 2 ^ 16 := by
  cases i <;> simp [Instr.WellFormed, Instr.wellFormed, subOf, lenOf]

theorem decode_eq_command_iff_fields {w : Word} {i : Instr} : decode w = .command i ↔
    opField w = Laws.opcodeOf i ∧ subField w = subOf i ∧ lenField w = lenOf i := by
  constructor
  · intro h
    obtain ⟨ho, hs, hl, rfl⟩ | ⟨ho, hs, rfl⟩ | ⟨ho, hs, rfl⟩ | ⟨ho, hs, rfl⟩ | ⟨ho, hs, rfl⟩ | ⟨ho, hs, rfl⟩ |
      ⟨ho, hs, hl, rfl⟩ | ⟨ho, hl, rfl⟩ := Laws.decodeFields_eq_command h
    · exact ⟨ho, hs, hl⟩
    · exact ⟨ho, hs, rfl⟩
    · exact ⟨ho, hs, rfl⟩
    · exact ⟨ho, hs, rfl⟩
    · exact ⟨ho, hs, rfl⟩
    · exact ⟨ho, hs, rfl⟩
    · exact ⟨ho, hs, hl⟩
    · exact ⟨ho, rfl, hl⟩
  · rintro ⟨ho, hs, hl⟩
    rw [decode, ho, hs, hl, decodeFields_eq_self]

/-! ### Round trips -/

/-- Settles O1. -/
theorem decodeEncodeRoundTrip : Obligations.DecodeEncodeRoundTrip := by
  intro i hi
  obtain ⟨hs, hl⟩ := (wellFormed_iff i).mp hi
  rw [encode_eq_packFields, Laws.decode_packFields (opcodeOf_lt i) hs hl, decodeFields_eq_self]

/-- Settles O2: a field's value fits the field, and a word is the pack of its fields. -/
theorem decodedWordReencodes : Obligations.DecodedWordReencodes := by
  intro w i h
  obtain ⟨ho, hs, hl⟩ := decode_eq_command_iff_fields.mp h
  refine ⟨(wellFormed_iff i).mpr ⟨hs ▸ Laws.subField_lt w, hl ▸ Laws.lenField_lt w⟩, ?_⟩
  rw [encode_eq_packFields, ← ho, ← hs, ← hl, Laws.packFields_fields]

/-! ### Words as numbers -/

theorem decode_eq_command_iff_toNat {w : Word} {i : Instr} : decode w = .command i ↔
    i.WellFormed ∧ w.toNat = Laws.opcodeOf i * 2 ^ 24 + subOf i * 2 ^ 16 + lenOf i := by
  have hop := opcodeOf_lt i
  rw [decode_eq_command_iff_fields, wellFormed_iff, Laws.opField_eq, Laws.subField_eq, Laws.lenField_eq]
  omega

theorem exists_illegal_iff (w : Word) : (∃ why, decode w = .illegal why) ↔ ∀ i, decode w ≠ .command i := by
  cases decode w <;> simp

/-- Settles O3. -/
theorem decodeReadsEveryWord : Obligations.DecodeReadsEveryWord := by
  intro w n
  refine ⟨?_, ?_, ?_, ?_, ?_, ?_, ?_, ?_, exists_illegal_iff w⟩
  all_goals
    rw [decode_eq_command_iff_toNat, wellFormed_iff]
    simp only [Laws.opcodeOf, subOf, lenOf]
    omega

/-! ### Masks and patterns -/

/-- A mask acts on each field alone, and a row's pattern holds its opcode and nothing else. -/
theorem and_eq_pattern_iff (w mask : Word) {op : Nat} (hop : op < 2 ^ 8) : w &&& mask = packFields op 0 0 ↔
    opField w &&& opField mask = op ∧ subField w &&& subField mask = 0 ∧ lenField w &&& lenField mask = 0 := by
  have ho : opField (w &&& mask) = opField w &&& opField mask := by
    simp only [opField, BitVec.extractLsb'_and, BitVec.toNat_and]
  have hs : subField (w &&& mask) = subField w &&& subField mask := by
    simp only [subField, BitVec.extractLsb'_and, BitVec.toNat_and]
  have hl : lenField (w &&& mask) = lenField w &&& lenField mask := by
    simp only [lenField, BitVec.extractLsb'_and, BitVec.toNat_and]
  have hpo := Laws.opField_packFields (sub := 0) (len := 0) hop (by decide) (by decide)
  have hps := Laws.subField_packFields (sub := 0) (len := 0) hop (by decide) (by decide)
  have hpl := Laws.lenField_packFields (sub := 0) (len := 0) hop (by decide) (by decide)
  rw [← ho, ← hs, ← hl]
  constructor
  · intro h
    rw [h]
    exact ⟨hpo, hps, hpl⟩
  · rintro ⟨h1, h2, h3⟩
    exact Laws.word_ext (h1.trans hpo.symm) (h2.trans hps.symm) (h3.trans hpl.symm)

/-- A mask that covers a field keeps its value. -/
theorem fields_and_full (w : Word) : opField w &&& 0xFF = opField w ∧ subField w &&& 0xFF = subField w ∧
    lenField w &&& 0xFFFF = lenField w :=
  ⟨(Nat.and_two_pow_sub_one_eq_mod _ 8).trans (Nat.mod_eq_of_lt (Laws.opField_lt w)),
    (Nat.and_two_pow_sub_one_eq_mod _ 8).trans (Nat.mod_eq_of_lt (Laws.subField_lt w)),
    (Nat.and_two_pow_sub_one_eq_mod _ 16).trans (Nat.mod_eq_of_lt (Laws.lenField_lt w))⟩

/-- The rows of the commands without operand. -/
theorem and_bareMask_iff (w : Word) {op : Nat} (hop : op < 2 ^ 8) : w &&& 0xFFFFFFFF = packFields op 0 0 ↔
    opField w = op ∧ subField w = 0 ∧ lenField w = 0 := by
  obtain ⟨ho, hs, hl⟩ := fields_and_full w
  rw [and_eq_pattern_iff w _ hop, show opField 0xFFFFFFFF = 0xFF from rfl, show subField 0xFFFFFFFF = 0xFF from rfl,
    show lenField 0xFFFFFFFF = 0xFFFF from rfl, ho, hs, hl]

/-- The rows of the commands with an operand in LEN. -/
theorem and_lenMask_iff (w : Word) {op : Nat} (hop : op < 2 ^ 8) : w &&& 0xFFFF0000 = packFields op 0 0 ↔
    opField w = op ∧ subField w = 0 := by
  obtain ⟨ho, hs, -⟩ := fields_and_full w
  rw [and_eq_pattern_iff w _ hop, show opField 0xFFFF0000 = 0xFF from rfl, show subField 0xFFFF0000 = 0xFF from rfl,
    show lenField 0xFFFF0000 = 0 from rfl, ho, hs, Nat.and_zero, and_iff_left rfl]

/-- The row of RDREG, whose operand is in SUB. -/
theorem and_subMask_iff (w : Word) {op : Nat} (hop : op < 2 ^ 8) : w &&& 0xFF00FFFF = packFields op 0 0 ↔
    opField w = op ∧ lenField w = 0 := by
  obtain ⟨ho, -, hl⟩ := fields_and_full w
  rw [and_eq_pattern_iff w _ hop, show opField 0xFF00FFFF = 0xFF from rfl, show subField 0xFF00FFFF = 0 from rfl,
    show lenField 0xFF00FFFF = 0xFFFF from rfl, ho, hl, Nat.and_zero, and_iff_right rfl]

theorem exists_instr_iff (P : Instr → Prop) : (∃ i, P i) ↔
    P .nop ∨ (∃ n, P (.encode n)) ∨ (∃ n, P (.decode n)) ∨ (∃ n, P (.jbWrite n)) ∨ (∃ n, P (.jbFill n)) ∨
      (∃ n, P (.jbPlay n)) ∨ P .jbReset ∨ ∃ n, P (.rdreg n) := by
  constructor
  · rintro ⟨i, hi⟩
    cases i with
    | nop => exact .inl hi
    | encode n => exact .inr (.inl ⟨n, hi⟩)
    | decode n => exact .inr (.inr (.inl ⟨n, hi⟩))
    | jbWrite n => exact .inr (.inr (.inr (.inl ⟨n, hi⟩)))
    | jbFill n => exact .inr (.inr (.inr (.inr (.inl ⟨n, hi⟩))))
    | jbPlay n => exact .inr (.inr (.inr (.inr (.inr (.inl ⟨n, hi⟩)))))
    | jbReset => exact .inr (.inr (.inr (.inr (.inr (.inr (.inl hi))))))
    | rdreg n => exact .inr (.inr (.inr (.inr (.inr (.inr (.inr ⟨n, hi⟩))))))
  · rintro (h | ⟨n, h⟩ | ⟨n, h⟩ | ⟨n, h⟩ | ⟨n, h⟩ | ⟨n, h⟩ | h | ⟨n, h⟩) <;> exact ⟨_, h⟩

/-- A row's mask and pattern leave open exactly the field of the row's operand. -/
theorem matches_row_iff (w : Word) : ∀ row ∈ opcodeMap,
    (w &&& row.mask = row.pattern ↔ ∃ i, decode w = .command i ∧ mnemonic i = row.name) := by
  simp only [opcodeMap, List.forall_mem_cons, List.not_mem_nil, false_implies, implies_true, and_true,
    exists_instr_iff, mnemonic, decode_eq_command_iff_fields, Laws.opcodeOf, subOf, lenOf]
  refine ⟨(and_bareMask_iff w (op := 0x00) (by decide)).trans ?_,
    (and_lenMask_iff w (op := 0x01) (by decide)).trans ?_, (and_lenMask_iff w (op := 0x02) (by decide)).trans ?_,
    (and_lenMask_iff w (op := 0x10) (by decide)).trans ?_, (and_lenMask_iff w (op := 0x11) (by decide)).trans ?_,
    (and_lenMask_iff w (op := 0x12) (by decide)).trans ?_, (and_bareMask_iff w (op := 0x1F) (by decide)).trans ?_,
    (and_subMask_iff w (op := 0x20) (by decide)).trans ?_⟩ <;> simp

theorem exists_row_of_instr (i : Instr) : ∃ row ∈ opcodeMap, mnemonic i = row.name := by
  cases i <;> simp [opcodeMap, mnemonic]

/-- Settles O4: a word is ILLEGAL exactly when it is no command, and each command has its row. -/
theorem decodeAgreesWithOpcodeMap : Obligations.DecodeAgreesWithOpcodeMap := by
  refine fun w => ⟨matches_row_iff w, ?_⟩
  rw [exists_illegal_iff]
  constructor
  · intro hnone i hi
    obtain ⟨row, hrow, hname⟩ := exists_row_of_instr i
    exact hnone row hrow ((matches_row_iff w row hrow).mpr ⟨i, hi, hname⟩)
  · intro hnone row hrow hmatch
    obtain ⟨i, hi, -⟩ := (matches_row_iff w row hrow).mp hmatch
    exact hnone i hi

/-! ### Fixed words and codes -/

/-- Settles O5. -/
theorem decodeReadsSpecWords : Obligations.DecodeReadsSpecWords := by
  unfold Obligations.DecodeReadsSpecWords
  decide

/-- Settles O11. -/
theorem statusCodesAreTheTable : Obligations.StatusCodesAreTheTable := by
  unfold Obligations.StatusCodesAreTheTable
  decide

end Sys2Proof.Proofs
end

section
/-!
The results of presentations: completion, refusal, and the shape of the one result record (spec 30 R76, R77, R79;
60 R131).
-/

namespace Sys2Proof.Proofs

open Sys2Proof.Machine

/-- Every command's DIN is checked before anything else (60 R134 (1)). -/
theorem exec_eq_perform (i : Instr) (s : State) : ∃ t, exec i s = perform (dinOk i s.din.length) t := by
  cases i <;> exact ⟨_, rfl⟩

theorem exec_of_dinOk {i : Instr} {s : State} (hd : dinOk i s.din.length = true) : ∃ t, exec i s = .next t := by
  obtain ⟨t, ht⟩ := exec_eq_perform i s
  exact ⟨t, ht.trans (Laws.perform_eq_next.mpr ⟨hd, rfl⟩)⟩

theorem exec_refused_of_not_dinOk {i : Instr} {s : State} (hd : dinOk i s.din.length = false) :
    exec i s = .refused .malformedPresentation := by
  obtain ⟨t, ht⟩ := exec_eq_perform i s
  exact ht.trans (Laws.perform_eq_refused.mpr ⟨hd, rfl⟩)

/-- Settles O9. -/
theorem refusesDinOfWrongLength : Obligations.RefusesDinOfWrongLength := by
  intro s n
  refine ⟨fun hlen => ?_, fun hlong => ?_, fun hsome => ?_⟩
  · refine ⟨?_, ?_, ?_⟩ <;> exact exec_refused_of_not_dinOk (decide_eq_false hlen)
  · have hmax : ¬ s.din.length ≤ maxDin := Nat.not_le.mpr hlong
    exact ⟨exec_refused_of_not_dinOk (decide_eq_false hmax),
      Laws.perform_eq_refused.mpr ⟨decide_eq_false hmax, rfl⟩⟩
  · refine ⟨?_, ?_, ?_, ?_⟩ <;> exact exec_refused_of_not_dinOk (decide_eq_false hsome)

/-! ### An ILLEGAL word -/

theorem step_of_decode_illegal {s : State} {w : Word} {din : List Byte} {rest : List HostAction} {why : Illegal}
    (hs : s.script = .command w din :: rest) (hw : decode w = .illegal why) (hd : dinOkIllegal din.length = true) :
    step s = .next (answer (mkResult .illegalCommand 0 []) (latch rest din s)) := by
  simp only [step, hs, hw]
  exact Laws.perform_eq_next.mpr ⟨hd, rfl⟩

/-- Settles O7: the state that `answer` leaves is the one the statement writes out. -/
theorem illegalWordChangesNoState : Obligations.IllegalWordChangesNoState :=
  fun _ _ _ _ _ hs hw hd => step_of_decode_illegal hs hw (decide_eq_true hd)

/-! ### The shape of a result -/

/-- What R77 says of a command's result: VALUE belongs to RDREG, and DOUT to the commands that return bytes. -/
structure ResultShape (i : Instr) (r : Result) : Prop where
  value_eq : (∀ k, i ≠ .rdreg k) → r.value = 0
  dout_length : (isFramerCommand i = true ∨ ∃ n, i = .jbPlay n) → r.dout.length = r.count.toNat
  dout_nil : isFramerCommand i = false → (∀ n, i ≠ .jbPlay n) → r.dout = []

/-- A result without bytes has the shape of every command's result. -/
theorem resultShape_empty (i : Instr) (status : Status) : ResultShape i (mkResult status 0 []) :=
  ⟨fun _ => rfl, fun _ => rfl, fun _ _ => rfl⟩

/-- A result with its bytes and their number, of a command that returns bytes. -/
theorem resultShape_bytes {i : Instr} (hi : isFramerCommand i = true ∨ ∃ n, i = .jbPlay n) (status : Status)
    {count : Nat} {bytes : List Byte} (hlen : bytes.length = count) (hcount : count < 2 ^ 32) :
    ResultShape i (mkResult status count bytes) where
  value_eq _ := rfl
  dout_length _ := hlen.trans (Nat.mod_eq_of_lt hcount).symm
  dout_nil hframer hplay := by
    obtain h | ⟨n, h⟩ := hi
    · exact absurd (h.symm.trans hframer) (by decide)
    · exact absurd h (hplay n)

theorem resultShape_store {i : Instr} (hi : ∃ n, i = .jbWrite n ∨ i = .jbFill n) (n : Nat) (s : State) :
    ResultShape i (storeResult n s) := by
  refine ⟨fun _ => rfl, fun hbytes => ?_, fun _ _ => rfl⟩
  obtain ⟨m, rfl | rfl⟩ := hi <;> simp [isFramerCommand] at hbytes

theorem rdregResult_dout (s : State) (index : Nat) : (rdregResult s index).dout = [] := by
  unfold rdregResult
  split <;> rfl

theorem resultShape_rdreg (s : State) (index : Nat) : ResultShape (.rdreg index) (rdregResult s index) where
  value_eq h := absurd rfl (h index)
  dout_length h := by simp [isFramerCommand] at h
  dout_nil _ _ := rdregResult_dout s index

@[simp] theorem rtpHeader_length (c : Cfg) (f : Session) : (rtpHeader c f).length = headerBytes := rfl

theorem resultShape_decode (capacity : Nat) {datagram : List Byte} (hd : datagram.length ≤ maxDin) :
    ResultShape (.decode capacity) (decodeResult capacity datagram) := by
  unfold decodeResult
  split
  · exact resultShape_empty _ _
  · refine resultShape_bytes (.inl rfl) _ (by simp) ?_
    have hle : min (datagram.drop headerBytes).length capacity ≤ datagram.length :=
      (Nat.min_le_left _ _).trans (by simp)
    exact (hle.trans hd).trans_lt (by decide)

/-- Every completed command returns one result, of the command's shape. -/
theorem exec_resultShape {i : Instr} {s t : State} (hi : i.WellFormed) (h : exec i s = .next t) :
    ∃ r, t.results = s.results ++ [r] ∧ ResultShape i r := by
  cases i with
  | nop | jbReset =>
    obtain ⟨-, rfl⟩ := Laws.perform_eq_next.mp h
    exact ⟨_, rfl, resultShape_empty _ _⟩
  | encode len =>
    obtain ⟨hd, rfl⟩ := Laws.perform_eq_next.mp h
    have hlen : s.din.length = len := of_decide_eq_true hd
    have hlt : len < 2 ^ 16 := of_decide_eq_true hi
    split
    · exact ⟨_, rfl, resultShape_empty _ _⟩
    · exact ⟨_, rfl, resultShape_bytes (.inl rfl) _ (by simp [hlen, Nat.add_comm])
        (show len + 12 < 2 ^ 32 by omega)⟩
  | decode capacity =>
    obtain ⟨hd, rfl⟩ := Laws.perform_eq_next.mp h
    exact ⟨_, rfl, resultShape_decode capacity (of_decide_eq_true hd)⟩
  | jbWrite len =>
    obtain ⟨-, rfl⟩ := Laws.perform_eq_next.mp h
    exact ⟨_, rfl, resultShape_store ⟨len, .inl rfl⟩ len s⟩
  | jbFill len =>
    obtain ⟨-, rfl⟩ := Laws.perform_eq_next.mp h
    split
    · exact ⟨_, rfl, resultShape_store ⟨len, .inr rfl⟩ len s⟩
    · exact ⟨_, rfl, resultShape_empty _ _⟩
  | jbPlay len =>
    obtain ⟨-, rfl⟩ := Laws.perform_eq_next.mp h
    split
    · exact ⟨_, rfl, resultShape_empty _ _⟩
    · exact ⟨_, rfl, resultShape_bytes (.inr ⟨len, rfl⟩) _ (Laws.fetchBytes_length s _)
        ((Laws.played_le_count len s).trans_lt s.jb.count.isLt)⟩
  | rdreg index =>
    obtain ⟨-, rfl⟩ := Laws.perform_eq_next.mp h
    exact ⟨_, rfl, resultShape_rdreg s index⟩

/-- Settles O10. -/
theorem everyCommandReturnsOneResult : Obligations.EveryCommandReturnsOneResult := by
  intro s w din rest hs hok
  cases hw : decode w with
  | command i =>
    obtain ⟨hwf, -⟩ := decodedWordReencodes w i hw
    obtain ⟨t, ht⟩ := exec_of_dinOk (s := latch rest din s) (dinOk_of_presentationOk hw hok)
    obtain ⟨-, hscript, hdin, -⟩ := Laws.exec_cases ht
    obtain ⟨r, hr, hshape⟩ := exec_resultShape hwf ht
    refine ⟨t, r, (step_of_decode_command hs hw).trans ht, hscript, hdin, hr, ?_⟩
    simp only [Decoded.command.injEq, reduceCtorEq, false_implies, implies_true, and_true, forall_eq', ne_eq]
    exact ⟨hshape.value_eq, hshape.dout_length, hshape.dout_nil⟩
  | illegal why =>
    have hd : dinOkIllegal din.length = true := by simpa only [presentationOk, hw] using hok
    exact ⟨_, _, step_of_decode_illegal hs hw hd, rfl, rfl, rfl, fun _ => rfl,
      fun _ _ _ => rfl, fun _ _ _ _ => rfl, fun _ _ => rfl⟩

end Sys2Proof.Proofs
end

section
/-!
What ENCODE emits and leaves (spec 30 R72, R74; 40 R91).
-/

namespace Sys2Proof.Proofs

open Sys2Proof.Machine

theorem exec_encode_of_pos {s : State} {len : Nat} (hlen : s.din.length = len) (hpos : len ≠ 0) :
    exec (.encode len) s = .next (answer (mkResult .ok (len + headerBytes) (rtpHeader s.cfg s.session ++ s.din))
      { s with session := advance s.cfg len s.session }) :=
  Laws.perform_eq_next.mpr ⟨decide_eq_true hlen, if_neg hpos⟩

theorem exec_encode_zero {s : State} (hd : s.din = []) :
    exec (.encode 0) s = .next (answer (mkResult .badLength 0 []) s) :=
  Laws.perform_eq_next.mpr ⟨by simp [dinOk, hd], rfl⟩

/-- With no DIN to consume, an answer only appends its result. -/
theorem answer_of_din_nil {s : State} (hd : s.din = []) (r : Result) :
    answer r s = { s with results := s.results ++ [r] } := by
  rw [answer, ← hd]

/-- SEQ's increment as a sum of numbers (40 R92). -/
theorem advance_eq (c : Cfg) (len : Nat) (f : Session) : advance c len f =
    { f with seq := BitVec.ofNat 16 (f.seq.toNat + 1), ts := BitVec.ofNat 32 (f.ts.toNat + tsInc c len) } := by
  have hseq : f.seq + 1 = BitVec.ofNat 16 (f.seq.toNat + 1) := BitVec.eq_of_toNat_eq (by simp)
  rw [advance, hseq]

/-- Settles O25. -/
theorem encodeEmitsPacket : Obligations.EncodeEmitsPacket := by
  intro s len _ hlen
  obtain rfl | hpos := eq_or_ne len 0
  · have hd : s.din = [] := List.length_eq_zero_iff.mp hlen
    rw [exec_encode_zero hd, if_pos rfl, answer_of_din_nil hd]
    rfl
  · rw [exec_encode_of_pos hlen hpos, advance_eq, if_neg hpos]
    rfl

/-- Settles O26: the legal range of PT leaves its bit 7 clear (00 R10). -/
theorem markerBitIsClear : Obligations.MarkerBitIsClear := by
  intro s len hc hlen hpos
  obtain ⟨hpt, -⟩ := (Laws.configOk_iff _).mp hc
  exact ⟨_, _, exec_encode_of_pos hlen (Nat.ne_of_gt hpos), rfl, rfl, rfl, Nat.testBit_lt_two_pow (by omega)⟩

end Sys2Proof.Proofs
end

section
/-!
The words of the pseudo-instructions and the printed form of each command's word (spec 30 R82, R83).
-/

namespace Sys2Proof.Proofs

open Sys2Proof.Machine

theorem encode_jbPlay_eq_add {v : Word} (hv : v.toNat < 2 ^ 16) : encode (.jbPlay v.toNat) = 0x12000000 + v := by
  apply BitVec.eq_of_toNat_eq
  rw [encode, Laws.toNat_packFields _ _ _ (by decide) (by decide) hv, BitVec.toNat_add]
  rw [show (0x12000000 : Word).toNat = 0x12000000 from rfl]
  omega

/-- Settles O44. -/
theorem pseudoInstructionsExpand : Obligations.PseudoInstructionsExpand := by
  refine fun c => ⟨rfl, rfl, rfl, rfl, rfl, rfl, rfl, fun hfits => ?_, fun hlong => ?_⟩
  · have hlt : c.frameBytes.toNat < 2 ^ 16 := Nat.lt_succ_of_le hfits
    rw [expand, if_pos hlt, Option.map_some, encode_jbPlay_eq_add hlt]
  · exact if_neg (Nat.not_lt.mpr hlong)

theorem disassemble_of_operandText {i : Instr} {text : String} (hi : i.WellFormed) (ht : operandText i = some text) :
    disassemble (encode i) = mnemonic i ++ " " ++ text := by
  simp only [disassemble, decodeEncodeRoundTrip i hi, ht]

/-- Settles O45. -/
theorem disassemblyPrintsCommands : Obligations.DisassemblyPrintsCommands := by
  intro n hn
  have hlen : decide (n < 2 ^ 16) = true := decide_eq_true hn
  refine ⟨by decide, by decide, disassemble_of_operandText (i := .encode n) hlen rfl,
    disassemble_of_operandText (i := .decode n) hlen rfl, disassemble_of_operandText (i := .jbWrite n) hlen rfl,
    disassemble_of_operandText (i := .jbFill n) hlen rfl, disassemble_of_operandText (i := .jbPlay n) hlen rfl,
    fun name hname => ?_, fun hge hlt => ?_⟩
  · obtain ⟨hassigned, -⟩ := List.getElem?_eq_some_iff.mp hname
    have hcount : registerNames.length = 15 := rfl
    refine disassemble_of_operandText (i := .rdreg n) (decide_eq_true (by omega)) ?_
    rw [operandText, registerName, hname, Option.getD_some]
  · have hnone : registerNames[n]? = none := List.getElem?_eq_none hge
    refine disassemble_of_operandText (i := .rdreg n) (decide_eq_true hlt) ?_
    rw [operandText, registerName, hnone, Option.getD_none]

end Sys2Proof.Proofs
end

section
/-!
How the session counts: TS by whole samples, and SEQ and TS along consecutive ENCODEs (spec 40 R86, R92, R93, R94, R98).
-/

namespace Sys2Proof.Proofs

open Sys2Proof.Machine

/-- With RTP_CLOCK = SAMPLE_RATE the clock cancels out of R85's quotient (40 R86). -/
theorem tsInc_of_rtpClock_eq {c : Cfg} (hrate : 1 ≤ c.sampleRate.toNat) (hclock : c.rtpClock = c.sampleRate)
    (len : Nat) : tsInc c len = len / c.sampleWidth.toNat := by
  rw [tsInc, hclock, Nat.mul_comm len, Nat.mul_div_mul_left _ _ hrate]

/-- Settles O27. -/
theorem timestampCountsSamples : Obligations.TimestampCountsSamples := by
  intro s len hc hclock hlen hpos
  obtain ⟨-, hrate, -⟩ := (Laws.configOk_iff _).mp hc
  refine ⟨_, exec_encode_of_pos hlen (Nat.ne_of_gt hpos), ?_⟩
  rw [← tsInc_of_rtpClock_eq hrate hclock]
  exact BitVec.toNat_ofNat ..

/-! ### Consecutive ENCODEs -/

/-- The session after ENCODEs of these payloads, one after another. -/
def sessionAfter (c : Cfg) (f : Session) (payloads : List (List Byte)) : Session :=
  payloads.foldl (fun g p => advance c p.length g) f

/-- The record that an ENCODE of a nonempty payload returns (40 R91, R98). -/
def packetResult (c : Cfg) (f : Session) (payload : List Byte) : Result :=
  mkResult .ok (payload.length + headerBytes) (rtpHeader c f ++ payload)

/-- The records of consecutive ENCODEs: each packet's header holds the session that the payloads before it leave. -/
def packetResults (c : Cfg) (f : Session) (payloads : List (List Byte)) : List Result :=
  payloads.mapIdx fun j p => packetResult c (sessionAfter c f (payloads.take j)) p

theorem packetResults_cons (c : Cfg) (f : Session) (p : List Byte) (ps : List (List Byte)) :
    packetResults c f (p :: ps) = packetResult c f p :: packetResults c (advance c p.length f) ps :=
  List.mapIdx_cons

/-- Consecutive increments add up: the truncation to each register's width is a truncation of the sum. -/
theorem sessionAfter_eq (c : Cfg) (f : Session) (payloads : List (List Byte)) : sessionAfter c f payloads =
    { f with
      seq := BitVec.ofNat 16 (f.seq.toNat + payloads.length)
      ts := BitVec.ofNat 32 (f.ts.toNat + (payloads.map fun p => tsInc c p.length).sum) } := by
  induction payloads generalizing f with
  | nil => simp [sessionAfter]
  | cons p ps ih =>
    have hstep : sessionAfter c f (p :: ps) = sessionAfter c (advance c p.length f) ps := rfl
    rw [hstep, ih, advance_eq]
    congr 1 <;> apply BitVec.eq_of_toNat_eq
    · simp [Nat.add_assoc, Nat.add_comm 1]
    · simp [Nat.add_assoc]

/-- The step of an ENCODE presented with a nonempty payload. -/
theorem step_encode {s : State} {p : List Byte} {rest : List HostAction}
    (hs : s.script = .command (encode (.encode p.length)) p :: rest) (hp : 1 ≤ p.length ∧ p.length < 2 ^ 16) :
    step s = .next (answer (packetResult s.cfg s.session p)
      { latch rest p s with session := advance s.cfg p.length s.session }) := by
  obtain ⟨hpos, hlt⟩ := hp
  have hdecode := decodeEncodeRoundTrip (.encode p.length) (decide_eq_true hlt)
  exact (step_of_decode_command hs hdecode).trans (exec_encode_of_pos rfl (Nat.ne_of_gt hpos))

/-- N ENCODEs of nonempty payloads complete, and only the session, the results and the port change. -/
theorem runSteps_encodeScript {s : State} {payloads : List (List Byte)}
    (hp : ∀ p ∈ payloads, 1 ≤ p.length ∧ p.length < 2 ^ 16) (hs : s.script = encodeScript payloads) :
    ∃ t, runSteps payloads.length s = .next t ∧ t.results = s.results ++ packetResults s.cfg s.session payloads ∧
      t.cfg = s.cfg ∧ t.jb = s.jb ∧ t.session = sessionAfter s.cfg s.session payloads := by
  induction payloads generalizing s with
  | nil => exact ⟨s, rfl, (List.append_nil _).symm, rfl, rfl, rfl⟩
  | cons p ps ih =>
    obtain ⟨hhead, htail⟩ := List.forall_mem_cons.mp hp
    obtain ⟨t, hrun, hresults, hcfg, hjb, hsession⟩ := ih (s := answer (packetResult s.cfg s.session p)
      { latch (encodeScript ps) p s with session := advance s.cfg p.length s.session }) htail rfl
    refine ⟨t, (Laws.runSteps_succ (step_encode hs hhead)).trans hrun, ?_, hcfg, hjb, hsession⟩
    rw [hresults, packetResults_cons, List.append_cons]
    rfl

/-- Settles O28. -/
theorem consecutiveEncodesCount : Obligations.ConsecutiveEncodesCount := by
  intro s payloads _ hp hs inc
  obtain ⟨t, hrun, hresults, hcfg, hjb, hsession⟩ := runSteps_encodeScript hp hs
  rw [sessionAfter_eq] at hsession
  refine ⟨t, _, hrun, hresults, hcfg, hjb, by rw [hsession], ?_, ?_, List.length_mapIdx, fun j p hj => ?_⟩
  · rw [hsession]
    exact BitVec.toNat_ofNat ..
  · rw [hsession]
    exact BitVec.toNat_ofNat ..
  · obtain ⟨hlt, -⟩ := List.getElem?_eq_some_iff.mp hj
    have hshort : p.length < 2 ^ 16 := (hp p (List.mem_of_getElem? hj)).2
    refine ⟨packetResult s.cfg (sessionAfter s.cfg s.session (payloads.take j)) p, ?_, rfl,
      Nat.mod_eq_of_lt (show p.length + 12 < 2 ^ 32 by omega), ?_, ?_⟩
    · rw [packetResults, List.getElem?_mapIdx, hj, Option.map_some]
    · simp [packetResult, mkResult, Nat.add_comm]
    · rw [sessionAfter_eq, List.length_take_of_le hlt.le]
      rfl

end Sys2Proof.Proofs
end

section
/-!
What DECODE returns of a datagram, and the round trip through a packet (spec 40 R100 to R105).
-/

namespace Sys2Proof.Proofs

open Sys2Proof.Machine

theorem exec_decode {s : State} (capacity : Nat) (hd : s.din.length ≤ maxDin) :
    exec (.decode capacity) s = .next (answer (decodeResult capacity s.din) s) :=
  Laws.perform_eq_next.mpr ⟨decide_eq_true hd, rfl⟩

/-! ### The result, by the length of the datagram -/

theorem decodeResult_short {capacity : Nat} {d : List Byte} (h : d.length ≤ headerBytes) :
    decodeResult capacity d = mkResult .shortDatagram 0 [] :=
  if_pos h

theorem decodeResult_truncated {capacity : Nat} {d : List Byte} (h : capacity < d.length - headerBytes) :
    decodeResult capacity d = mkResult .truncated capacity ((d.drop headerBytes).take capacity) := by
  have hlong : ¬ d.length ≤ headerBytes := by omega
  simp only [decodeResult, if_neg hlong, List.length_drop, Nat.min_eq_right h.le, if_pos h]

theorem decodeResult_ok {capacity : Nat} {d : List Byte} (hlong : headerBytes < d.length)
    (h : d.length - headerBytes ≤ capacity) :
    decodeResult capacity d = mkResult .ok (d.length - headerBytes) (d.drop headerBytes) := by
  have htake : (d.drop headerBytes).take (d.length - headerBytes) = d.drop headerBytes :=
    List.take_of_length_le List.length_drop.le
  simp only [decodeResult, if_neg hlong.not_ge, List.length_drop, Nat.min_eq_left h, Nat.lt_irrefl, if_false, htake]

/-- Settles O29. -/
theorem decodeStripsHeader : Obligations.DecodeStripsHeader := by
  intro s capacity hd answers
  have answers_of_eq {r : Result} (h : decodeResult capacity s.din = r) : answers r := h ▸ exec_decode capacity hd
  split_ifs with hshort htrunc
  · exact answers_of_eq (decodeResult_short hshort)
  · exact answers_of_eq (decodeResult_truncated htrunc)
  · exact answers_of_eq (decodeResult_ok (Nat.lt_of_not_le hshort) (Nat.le_of_not_lt htrunc))

/-! ### What the result does not depend on -/

theorem decodeResult_congr (capacity : Nat) {d e : List Byte} (hlen : e.length = d.length)
    (hdrop : e.drop headerBytes = d.drop headerBytes) : decodeResult capacity e = decodeResult capacity d := by
  simp only [decodeResult, hlen, hdrop]

/-- Settles O30. -/
theorem decodeIgnoresHeaderBytes : Obligations.DecodeIgnoresHeaderBytes := by
  intro s u capacity hd hlen hdrop
  refine ⟨_, _, _, exec_decode capacity hd, exec_decode capacity (hlen.trans_le hd), rfl, ?_⟩
  rw [Laws.answer_results, decodeResult_congr capacity hlen hdrop]

/-! ### The datagram of a packet -/

theorem length_rtpHeader_append (c : Cfg) (f : Session) (payload : List Byte) :
    (rtpHeader c f ++ payload).length - headerBytes = payload.length := by
  rw [List.length_append, rtpHeader_length, Nat.add_sub_cancel_left]

theorem drop_rtpHeader_append (c : Cfg) (f : Session) (payload : List Byte) :
    (rtpHeader c f ++ payload).drop headerBytes = payload :=
  List.drop_left' (rtpHeader_length c f)

theorem decodeResult_packet_ok {capacity : Nat} {payload : List Byte} (c : Cfg) (f : Session)
    (hpos : 1 ≤ payload.length) (h : payload.length ≤ capacity) :
    decodeResult capacity (rtpHeader c f ++ payload) = mkResult .ok payload.length payload := by
  have hlen := length_rtpHeader_append c f payload
  rw [decodeResult_ok (by omega) (hlen.trans_le h), hlen, drop_rtpHeader_append]

theorem decodeResult_packet_truncated {capacity : Nat} {payload : List Byte} (c : Cfg) (f : Session)
    (h : capacity < payload.length) :
    decodeResult capacity (rtpHeader c f ++ payload) = mkResult .truncated capacity (payload.take capacity) := by
  rw [decodeResult_truncated (h.trans_eq (length_rtpHeader_append c f payload).symm), drop_rtpHeader_append]

/-- Settles O31. -/
theorem decodeUndoesEncode : Obligations.DecodeUndoesEncode := by
  rintro s u len capacity rfl hpos hmax
  have hfits : (rtpHeader s.cfg s.session ++ s.din).length ≤ maxDin := by
    rwa [List.length_append, rtpHeader_length, Nat.add_comm]
  exact ⟨_, _, exec_encode_of_pos rfl (Nat.ne_of_gt hpos), rfl, _, _, exec_decode capacity hfits, rfl, rfl, rfl,
    decodeResult_packet_ok _ _ hpos, decodeResult_packet_truncated _ _⟩

end Sys2Proof.Proofs
end

section
/-!
What each of the buffer's commands does to the buffer and returns (spec 41 R107 to R122).
-/

namespace Sys2Proof.Proofs

open Sys2Proof.Machine

/-! ### JB_WRITE -/

/-- Accepted byte `j` goes to index `(WR + j) mod CAP` (41 R108). -/
theorem getElem?_din_of_lt_accepted {s : State} (h : s.Inv) {n : Nat} (hlen : s.din.length = n) {j : Nat}
    (hj : j < accepted n s) :
    s.din[j]? = some (ringRead (storedJb n s) ((s.jb.wr + j) % s.cfg.cap.toNat)) := by
  have hlt : j < s.din.length := hlen ▸ hj.trans_le (Laws.accepted_le n s)
  have hread := read_storedJb_of_lt_accepted h hlen hj
  rw [← wr_add_mod h, List.getElem?_take_of_lt hj, List.getElem?_eq_getElem hlt] at hread
  rw [List.getElem?_eq_getElem hlt, Laws.ringRead_of_read_some hread]

/-- An index that no accepted byte goes to keeps its byte. -/
theorem ringRead_storedJb_other (n : Nat) {s : State} {a : Nat}
    (ha : ∀ j < accepted n s, a ≠ (s.jb.wr + j) % s.cfg.cap.toNat) :
    ringRead (storedJb n s) a = ringRead s.jb a := by
  refine Laws.ringRead_eq_of_read_eq ?_
  rw [Laws.storedJb_ring]
  exact Laws.read_storeBytes_other _ _ _ _ fun j hj => ha j (hj.trans_le (List.length_take_le _ _))

/-- Settles O32. -/
theorem jbWriteStoresBytes : Obligations.JbWriteStoresBytes := fun s n h hlen =>
  ⟨store n s, exec_jbWrite hlen, rfl, rfl, rfl, rfl, rfl, Laws.storedJb_rd n s, Laws.storedJb_underflow n s,
    Laws.storedJb_wr n s, Laws.storedJb_count n s, Laws.storedJb_phase n s,
    fun _ => getElem?_din_of_lt_accepted h hlen, fun _ => ringRead_storedJb_other n⟩

/-! ### JB_FILL -/

theorem exec_jbFill_of_needFill {s : State} {n : Nat} (hlen : s.din.length = n) (hneed : needFill s = true) :
    exec (.jbFill n) s = .next (store n s) :=
  Laws.perform_eq_next.mpr ⟨decide_eq_true hlen, if_pos hneed⟩

theorem exec_jbFill_of_not_needFill {s : State} {n : Nat} (hlen : s.din.length = n) (hneed : ¬ needFill s = true) :
    exec (.jbFill n) s = .next (answer (mkResult .notNeeded 0 []) s) :=
  Laws.perform_eq_next.mpr ⟨decide_eq_true hlen, if_neg hneed⟩

/-- Settles O33. -/
theorem jbFillFollowsPolicy : Obligations.JbFillFollowsPolicy := by
  intro s n _ hlen need
  have hneed : needFill s = true ↔ need := needFill_iff s
  exact ⟨fun hn => ⟨store n s, exec_jbFill_of_needFill hlen (hneed.mpr hn), exec_jbWrite hlen⟩,
    fun hn => exec_jbFill_of_not_needFill hlen (mt hneed.mp hn)⟩

theorem store_count (n : Nat) (s : State) : (store n s).jb.count.toNat = s.jb.count.toNat + accepted n s :=
  Laws.storedJb_count n s

/-- Bytes that fit are all accepted, and the result says so. -/
theorem storeResult_of_le_free {n : Nat} {s : State} (hfit : n ≤ free s) : storeResult n s = mkResult .ok n [] := by
  have hacc : accepted n s = n := Nat.min_eq_left hfit
  rw [storeResult, hacc, if_neg (Nat.lt_irrefl n)]

/-- In PREFILL the buffer is never full, as the threshold is at most CAP (00 R10). -/
theorem free_pos_of_prefill {s : State} (h : s.Inv) (hp : s.jb.phase = .prefill) : 0 < free s := by
  obtain ⟨-, -, -, -, -, -, -, hthreshold⟩ := (Laws.configOk_iff _).mp h.cfg_ok
  exact Nat.sub_pos_of_lt ((h.prefill_below hp).trans_le hthreshold)

/-- Settles O34. -/
theorem jbFillMakesProgress : Obligations.JbFillMakesProgress := by
  intro s n h hlen
  refine ⟨fun hp hframe hroom hlow => ?_, fun hp hpos => ?_⟩
  · have hfit : n ≤ free s := hframe.trans hroom
    refine ⟨_, exec_jbFill_of_needFill hlen ((needFill_iff s).mpr (.inr ⟨hp, hroom, hlow⟩)), ?_, ?_⟩
    · rw [store_count, accepted, Nat.min_eq_left hfit]
    · rw [store, Laws.answer_results, storeResult_of_le_free hfit]
      rfl
  · refine ⟨_, exec_jbFill_of_needFill hlen ((needFill_iff s).mpr (.inl ⟨hp, h.prefill_below hp⟩)), ?_⟩
    have hacc : 1 ≤ accepted n s := Nat.le_min.mpr ⟨hpos, free_pos_of_prefill h hp⟩
    exact store_count n s ▸ Nat.add_le_add_left hacc _

/-! ### JB_PLAY -/

theorem exec_jbPlay_of_prefill {s : State} (n : Nat) (hd : s.din = []) (hp : s.jb.phase = .prefill) :
    exec (.jbPlay n) s = .next (answer (mkResult .notStarted 0 []) s) := by
  simp [exec, execJbPlay, dinOk, hd, hp]

/-- UNDERFLOW as a number: it wraps at 2^32 (10 R33). -/
theorem playedJb_underflow_toNat (n : Nat) (s : State) : (playedJb n s).underflow.toNat =
    if tickUnderflows s then (s.jb.underflow.toNat + 1) % 2 ^ 32 else s.jb.underflow.toNat := by
  rw [playedJb]
  split
  · exact BitVec.toNat_add ..
  · rfl

/-- Settles O35. -/
theorem jbPlayReturnsOldestBytes : Obligations.JbPlayReturnsOldestBytes := by
  intro s n _ hd k u
  refine ⟨fun hp => ?_, fun hp => ?_⟩
  · rw [exec_jbPlay_of_prefill n hd hp, answer_of_din_nil hd]
    rfl
  · exact ⟨tick n s, exec_jbPlay_of_playing n hd hp, rfl, rfl, rfl, rfl, rfl, rfl, Laws.playedJb_count n s,
      playedJb_underflow_toNat n s, rfl, rfl, fun _ => rfl⟩

/-! ### JB_RESET and the occupancy -/

/-- Settles O36. -/
theorem jbResetEmptiesBuffer : Obligations.JbResetEmptiesBuffer := by
  intro s hd
  rw [exec_jbReset hd, answer_of_din_nil (s := { s with jb := emptied s.cfg s.jb }) hd]
  rfl

/-- `COUNT + FREE = CAP` (41 R122). -/
theorem count_add_free {s : State} (h : s.Inv) : s.jb.count.toNat + free s = s.cfg.cap.toNat :=
  Nat.add_sub_of_le h.count_le_cap

/-- FREE fits the 32 bits that RDREG returns. -/
theorem free_lt (s : State) : free s < 2 ^ 32 := (Nat.sub_le _ _).trans_lt s.cfg.cap.isLt

/-- Settles O24. -/
theorem availAndFreeAddUpToCapacity : Obligations.AvailAndFreeAddUpToCapacity := by
  intro s h hd
  refine ⟨_, _, _, _, exec_rdreg hd 0x0B, rfl, exec_rdreg hd 0x0C, rfl, h.count_le_cap, ?_⟩
  have hfree : (rdregResult s 0x0C).value.toNat = free s := Nat.mod_eq_of_lt (free_lt s)
  rw [hfree]
  exact count_add_free h

/-! ### UNDERFLOW -/

/-- JB_PLAY counts an underflow exactly in PLAYING, below one frame (41 R117, R119). -/
theorem exec_jbPlay_underflow {s t : State} {n : Nat} (h : exec (.jbPlay n) s = .next t) : t.jb.underflow =
    if s.jb.phase = .playing ∧ s.jb.count.toNat < s.cfg.frameBytes.toNat then s.jb.underflow + 1
    else s.jb.underflow := by
  obtain ⟨-, rfl⟩ := Laws.perform_eq_next.mp h
  cases hp : s.jb.phase with
  | prefill => rfl
  | playing => simp [tick, playedJb, tickUnderflows]

/-- No command but JB_PLAY and JB_RESET touches UNDERFLOW. -/
theorem exec_underflow_of_not_jbPlay {i : Instr} {s t : State} (h : exec i s = .next t)
    (hplay : ∀ n, i ≠ .jbPlay n) (hreset : i ≠ .jbReset) : t.jb.underflow = s.jb.underflow := by
  obtain hj | ⟨n, -, hj⟩ | ⟨n, hi, -⟩ | ⟨hi, -⟩ := exec_jb h
  · rw [hj]
  · rw [hj, Laws.storedJb_underflow]
  · exact absurd hi (hplay n)
  · exact absurd hi hreset

/-- Settles O19. -/
theorem underflowCountsOncePerTick : Obligations.UnderflowCountsOncePerTick := by
  intro s t w din rest hs hne h
  by_cases hplay : ∃ n, decode w = .command (.jbPlay n)
  · obtain ⟨n, hw⟩ := hplay
    have hcount := exec_jbPlay_underflow (step_of_decode_command hs hw ▸ h)
    exact ⟨fun hlow => hcount.trans (if_pos hlow.2),
      fun hnot => hcount.trans (if_neg fun hlow => hnot ⟨⟨n, hw⟩, hlow⟩)⟩
  · refine ⟨fun hlow => absurd hlow.1 hplay, fun _ => ?_⟩
    obtain ⟨i, hw, hi⟩ | ⟨why, -, rfl⟩ := step_presentation_cases hs h
    · exact exec_underflow_of_not_jbPlay (s := latch rest din s) hi (fun n hn => hplay ⟨n, hn ▸ hw⟩)
        (fun hr => hne (hr ▸ hw))
    · rfl

end Sys2Proof.Proofs
end

section
/-!
First in, first out: each command's bytes at the ends of what the buffer holds, and along a run (spec 41 R123).
-/

namespace Sys2Proof.Proofs

open Sys2Proof.Machine

/-- The bytes held are settled by the configuration and the buffer (10 R35 (d)). -/
theorem contents_congr {s t : State} (hc : t.cfg = s.cfg) (hj : t.jb = s.jb) : contents t = contents s := by
  simp only [contents, fetchBytes, hc, hj]

theorem contents_length (s : State) : (contents s).length = s.jb.count.toNat := Laws.fetchBytes_length ..

/-! ### What a command stores and plays -/

theorem bytesStored_of_not_isBufferCommand {w : Word} {i : Instr} (hw : decode w = .command i)
    (hi : isBufferCommand i = false) (din : List Byte) (r : Result) : bytesStored w din r = [] := by
  cases i with
  | jbWrite _ | jbFill _ | jbPlay _ | jbReset => cases hi
  | nop | encode _ | decode _ | rdreg _ => simp only [bytesStored, hw]

theorem bytesPlayed_of_not_isBufferCommand {w : Word} {i : Instr} (hw : decode w = .command i)
    (hi : isBufferCommand i = false) (r : Result) : bytesPlayed w r = [] := by
  cases i with
  | jbWrite _ | jbFill _ | jbPlay _ | jbReset => cases hi
  | nop | encode _ | decode _ | rdreg _ => simp only [bytesPlayed, hw]

/-- The count that a store returns is the number of bytes it accepted: it fits 32 bits. -/
theorem storeResult_count (n : Nat) (s : State) : (storeResult n s).count.toNat = accepted n s :=
  Nat.mod_eq_of_lt ((Laws.accepted_le_cap n s).trans_lt s.cfg.cap.isLt)

/-- The bytes that a store of its whole DIN puts behind the bytes held. -/
theorem contents_store_result {s : State} (h : s.Inv) {n : Nat} (hlen : s.din.length = n) :
    contents (store n s) = contents s ++ s.din.take (storeResult n s).count.toNat := by
  rw [contents_store h hlen, storeResult_count]

/-- R123 for one command: what it plays leaves at the front, and what it stores joins at the back. -/
theorem exec_firstInFirstOut {w : Word} {i : Instr} {s t : State} {r : Result} (h : s.Inv)
    (hw : decode w = .command i) (hne : i ≠ .jbReset) (hexec : exec i s = .next t)
    (hr : t.results = s.results ++ [r]) :
    bytesPlayed w r ++ contents t = contents s ++ bytesStored w s.din r := by
  cases hbuf : isBufferCommand i with
  | false =>
    obtain ⟨hcfg, -⟩ := Laws.exec_cases hexec
    rw [bytesPlayed_of_not_isBufferCommand hw hbuf, bytesStored_of_not_isBufferCommand hw hbuf,
      contents_congr hcfg (exec_jb_of_not_isBufferCommand hexec hbuf), List.append_nil, List.nil_append]
  | true =>
    cases i with
    | jbWrite n =>
      obtain ⟨hlen, rfl⟩ := Laws.perform_eq_next.mp hexec
      obtain rfl := List.singleton_inj.mp (List.append_cancel_left hr)
      simp only [bytesPlayed, bytesStored, hw, List.nil_append]
      exact contents_store_result h (of_decide_eq_true hlen)
    | jbFill n =>
      obtain ⟨hlen, rfl⟩ := Laws.perform_eq_next.mp hexec
      simp only [bytesPlayed, bytesStored, hw, List.nil_append]
      split at hr <;> obtain rfl := List.singleton_inj.mp (List.append_cancel_left hr)
      next hneed =>
        rw [if_pos hneed]
        exact contents_store_result h (of_decide_eq_true hlen)
      next hneed =>
        rw [if_neg hneed]
        exact (List.append_nil _).symm
    | jbPlay n =>
      obtain ⟨-, rfl⟩ := Laws.perform_eq_next.mp hexec
      simp only [bytesPlayed, bytesStored, hw, List.append_nil]
      split at hr <;> obtain rfl := List.singleton_inj.mp (List.append_cancel_left hr)
      next => rfl
      next => exact fetchBytes_append_contents_tick n s
    | jbReset => exact absurd rfl hne
    | nop | encode _ | decode _ | rdreg _ => cases hbuf

/-- R123 for one presentation, an ILLEGAL word among them. -/
theorem step_presenting_firstInFirstOut {w : Word} {din : List Byte} {s t : State} {r : Result} (h : s.Inv)
    (hne : decode w ≠ .command .jbReset) (hstep : step (presenting w din s) = .next t)
    (hr : t.results.getLast? = some r) :
    bytesPlayed w r ++ contents t = contents s ++ bytesStored w din r := by
  obtain ⟨i, hw, hi⟩ | ⟨why, hw, rfl⟩ := step_presentation_cases (s := presenting w din s) rfl hstep
  · obtain ⟨-, -, -, -, ⟨q, hq⟩, -⟩ := Laws.exec_cases hi
    rw [hq, List.getLast?_concat, Option.some_inj] at hr
    exact exec_firstInFirstOut (s := latch [] din (presenting w din s)) (Laws.inv_of_block_eq h rfl rfl) hw
      (fun hreset => hne (hreset ▸ hw)) hi (hr ▸ hq)
  · simp only [bytesPlayed, bytesStored, hw, List.append_nil]
    rfl

/-! ### Runs -/

/-- A run's first command completes, returns a result, and the run goes on. -/
theorem flow_cons_eq_some {w : Word} {din : List Byte} {rest : List (Word × List Byte)} {s : State} {f : Flow}
    (h : flow ((w, din) :: rest) s = some f) :
    ∃ t r g, step (presenting w din s) = .next t ∧ t.results.getLast? = some r ∧ flow rest t = some g ∧
      f = { last := g.last, stored := bytesStored w din r ++ g.stored, played := bytesPlayed w r ++ g.played } := by
  unfold flow at h
  split at h
  next t hstep =>
    split at h
    next r g hr hg => exact ⟨t, r, g, hstep, hr, hg, (Option.some_inj.mp h).symm⟩
    next => cases h
  next => cases h
  next => cases h

theorem flow_firstInFirstOut {cmds : List (Word × List Byte)} {s : State} {f : Flow} (h : s.Inv)
    (hne : ∀ c ∈ cmds, decode c.1 ≠ .command .jbReset) (hf : flow cmds s = some f) :
    f.played ++ contents f.last = contents s ++ f.stored := by
  induction cmds generalizing s f with
  | nil =>
    obtain rfl := Option.some_inj.mp hf
    exact (List.append_nil _).symm
  | cons c rest ih =>
    obtain ⟨w, din⟩ := c
    obtain ⟨t, r, g, hstep, hr, hg, rfl⟩ := flow_cons_eq_some hf
    obtain ⟨hhead, htail⟩ := List.forall_mem_cons.mp hne
    have hinv : t.Inv := stepKeepsInvariant (presenting w din s) t (Laws.inv_of_block_eq h rfl rfl) hstep
    have hfirst := step_presenting_firstInFirstOut h hhead hstep hr
    have hrest : g.played ++ contents g.last = contents t ++ g.stored := ih hinv htail hg
    calc bytesPlayed w r ++ g.played ++ contents g.last
        = bytesPlayed w r ++ contents t ++ g.stored := by rw [List.append_assoc, hrest, List.append_assoc]
      _ = contents s ++ (bytesStored w din r ++ g.stored) := by rw [hfirst, List.append_assoc]

/-- Settles O41. -/
theorem runsAreFirstInFirstOut : Obligations.RunsAreFirstInFirstOut :=
  fun _ _ f h hne hf => ⟨flow_firstInFirstOut h hne hf, contents_length f.last⟩

end Sys2Proof.Proofs
end

section
/-!
What NOP and RDREG answer, and the words under NOP's opcode (spec 10 R40, R41; 42 R125, R127, R128).
-/

namespace Sys2Proof.Proofs

open Sys2Proof.Machine

/-! ### NOP -/

theorem decode_eq_nop_iff (w : Word) : decode w = .command .nop ↔ w = 0x00000000 := by
  have hwf : Instr.nop.WellFormed := rfl
  rw [decode_eq_command_iff_toNat, and_iff_right hwf]
  exact BitVec.toNat_inj (y := 0)

theorem opcodeOf_eq_zero_iff {i : Instr} : Laws.opcodeOf i = 0 ↔ i = .nop := by
  cases i <;> simp [Laws.opcodeOf]

/-- Among the words with `OP = 0x00` the only command is NOP (42 R125). -/
theorem eq_nop_of_decode_of_lt {w : Word} {i : Instr} (hlt : w.toNat < 0x01000000) (h : decode w = .command i) :
    i = .nop := by
  obtain ⟨-, hw⟩ := decode_eq_command_iff_toNat.mp h
  exact opcodeOf_eq_zero_iff.mp (by omega)

/-- Settles O21. -/
theorem nopReturnsOk : Obligations.NopReturnsOk := by
  refine ⟨decode_eq_nop_iff, fun w hlt hne => ?_, fun s hd => ?_⟩
  · rw [exists_illegal_iff]
    intro i h
    obtain rfl := eq_nop_of_decode_of_lt hlt h
    exact hne ((decode_eq_nop_iff w).mp h)
  · rw [exec_nop hd, answer_of_din_nil hd]
    rfl

/-! ### RDREG -/

theorem exec_rdreg_of_regValue {s : State} (hd : s.din = []) {i v : Nat} (h : regValue s i = some (BitVec.ofNat 32 v)) :
    exec (.rdreg i) s = .next { s with
      results := s.results ++ [{ status := .ok, count := 0, value := BitVec.ofNat 32 v, dout := [] }] } := by
  rw [exec_rdreg hd, answer_of_din_nil hd, rdregResult, h]

theorem exec_rdreg_of_regValue_none {s : State} (hd : s.din = []) {i : Nat} (h : regValue s i = none) :
    exec (.rdreg i) s = .next { s with
      results := s.results ++ [{ status := .badRegister, count := 0, value := 0, dout := [] }] } := by
  rw [exec_rdreg hd, answer_of_din_nil hd, rdregResult, h]
  rfl

/-- No index from 0x0F on has a register (10 R41). -/
theorem regValue_eq_none {s : State} {i : Nat} (hi : 0x0F ≤ i) : regValue s i = none := by
  obtain ⟨k, rfl⟩ := Nat.exists_eq_add_of_le' hi
  rfl

/-- A register of any width is returned as the number it holds (10 R41). -/
theorem exec_rdreg_of_regValue_setWidth {s : State} (hd : s.din = []) {i n : Nat} (x : BitVec n)
    (h : regValue s i = some (x.setWidth 32)) :
    exec (.rdreg i) s = .next { s with
      results := s.results ++ [{ status := .ok, count := 0, value := BitVec.ofNat 32 x.toNat, dout := [] }] } :=
  exec_rdreg_of_regValue hd (h.trans (congrArg some (BitVec.ofNat_toNat 32 x).symm))

theorem mul_toNat_eq_ite {b : Bool} {p : Prop} [Decidable p] (h : b = true ↔ p) (k : Nat) :
    k * b.toNat = if p then k else 0 := by
  cases b <;> simp [← h]

/-- JB_STATUS as a sum over the conditions of its flags (10 R37, R38, R40). -/
theorem jbStatus_eq (s : State) : jbStatus s = BitVec.ofNat 32 ((if s.jb.phase = .playing then 1 else 0) +
    (if (s.jb.phase = .prefill ∧ s.jb.count.toNat < prefillBytes s.cfg) ∨
        (s.jb.phase = .playing ∧ s.cfg.frameBytes.toNat ≤ free s ∧ s.jb.count.toNat < refillBytes s.cfg)
      then 2 else 0) +
    (if s.jb.count = 0 then 4 else 0) + (if s.jb.count = s.cfg.cap then 8 else 0)) := by
  rw [jbStatus, ← Nat.one_mul (playing s).toNat, mul_toNat_eq_ite (playing_iff s), mul_toNat_eq_ite (needFill_iff s),
    mul_toNat_eq_ite (b := empty s) decide_eq_true_iff, mul_toNat_eq_ite (b := full s) decide_eq_true_iff]

/-- Settles O22. -/
theorem rdregReadsEachRegister : Obligations.RdregReadsEachRegister := by
  intro s _ hd
  have register {n i : Nat} (x : BitVec n) := exec_rdreg_of_regValue_setWidth hd (i := i) x
  refine ⟨register s.session.seq rfl, register s.session.ts rfl, register s.session.ssrc rfl, register s.cfg.pt rfl,
    register s.cfg.sampleRate rfl, register s.cfg.sampleWidth rfl, register s.cfg.rtpClock rfl, register s.cfg.cap rfl,
    register s.cfg.frameBytes rfl, register s.cfg.prefillFrames rfl, register s.cfg.refillFrames rfl,
    register s.jb.count rfl, ?free, register s.jb.underflow rfl, ?status, ?unassigned⟩
  case free => exact exec_rdreg_of_regValue hd rfl
  case status => exact exec_rdreg_of_regValue hd (congrArg some (jbStatus_eq s))
  case unassigned => exact fun i hi => exec_rdreg_of_regValue_none hd (regValue_eq_none hi)

end Sys2Proof.Proofs
end

section
/-!
Runs of the host's loops in PREFILL: ticks alone change nothing, and offered frames bring playback about (spec 41 R114,
R119; 70 R151, R152).
-/

namespace Sys2Proof.Proofs

open Sys2Proof.Machine

/-! ### Ticks alone -/

/-- The step of a JB_PLAY presented in PREFILL: the host's script and results move on, and nothing of the block does. -/
theorem step_jbPlay_of_prefill {s : State} {n : Nat} {rest : List HostAction} (hn : n < 2 ^ 16) (hd : s.din = [])
    (hp : s.jb.phase = .prefill) (hs : s.script = .command (encode (.jbPlay n)) [] :: rest) :
    step s = .next { s with script := rest, results := s.results ++ [mkResult .notStarted 0 []] } := by
  have hlatch : latch rest [] s = { s with script := rest } := by rw [latch, ← hd]
  rw [step_of_decode_command hs (decodeEncodeRoundTrip (.jbPlay n) (decide_eq_true hn)), hlatch,
    exec_jbPlay_of_prefill n (s := { s with script := rest }) hd hp,
    answer_of_din_nil (s := { s with script := rest }) hd]

/-- Settles O42, by induction on the ticks: each leaves the block as the next one needs it. -/
theorem prefillStallsWithoutStores : Obligations.PrefillStallsWithoutStores := by
  intro s ns hp hns hs hd
  induction ns generalizing s with
  | nil =>
    rw [List.map_nil] at hs
    simp [← hs]
  | cons n ns ih =>
    obtain ⟨hn, hrest⟩ := List.forall_mem_cons.mp hns
    have hrun := ih { s with
      script := ns.map (fun n => HostAction.command (encode (.jbPlay n)) [])
      results := s.results ++ [mkResult .notStarted 0 []] } hp hrest rfl hd
    rw [List.length_cons, Laws.runSteps_succ (step_jbPlay_of_prefill hn hd hp hs), hrun, List.replicate_succ,
      List.append_assoc]
    rfl

/-! ### Frames offered to JB_FILL -/

/-- An offered nonempty frame leaves the block in PLAYING, or in PREFILL with at least one byte more. -/
theorem step_jbFill_progress {s : State} {f : List Byte} {rest : List HostAction} (h : s.Inv)
    (hf : 1 ≤ f.length ∧ f.length < 2 ^ 16) (hs : s.script = .command (encode (.jbFill f.length)) f :: rest) :
    ∃ t, step s = .next t ∧ t.Inv ∧ t.script = rest ∧ t.cfg = s.cfg ∧
      (t.jb.phase = .prefill → s.jb.phase = .prefill ∧ s.jb.count.toNat + 1 ≤ t.jb.count.toNat) := by
  obtain ⟨hpos, hlt⟩ := hf
  have hdecode := decodeEncodeRoundTrip (.jbFill f.length) (decide_eq_true hlt)
  obtain ⟨t, hexec⟩ := exec_of_dinOk (i := .jbFill f.length) (s := latch rest f s) (decide_eq_true rfl)
  have hstep : step s = .next t := (step_of_decode_command hs hdecode).trans hexec
  obtain ⟨hcfg, hscript, -⟩ := Laws.exec_cases hexec
  refine ⟨t, hstep, stepKeepsInvariant s t h hstep, hscript, hcfg, fun ht => ?_⟩
  obtain ⟨hstays, -⟩ := phaseChangesOnlyAtThreshold s t _ f rest hs (by simp [hdecode]) hstep
  cases hp : s.jb.phase with
  | playing => exact absurd (ht.symm.trans (hstays hp)) (by decide)
  | prefill =>
    have hlatch : (latch rest f s).Inv := Laws.inv_of_block_eq h rfl rfl
    obtain ⟨u, hu, hmore⟩ := (jbFillMakesProgress _ f.length hlatch rfl).2 hp hpos
    obtain rfl : u = t := Host.Outcome.next.inj (hu.symm.trans hexec)
    exact ⟨rfl, hmore⟩

/-- As many nonempty frames as the bytes still missing end PREFILL, and the frames left over do not bring it back. -/
theorem runSteps_fillScript_playing {s : State} {frames : List (List Byte)} (h : s.Inv)
    (hf : ∀ f ∈ frames, 1 ≤ f.length ∧ f.length < 2 ^ 16)
    (hmissing : s.jb.phase = .prefill → prefillBytes s.cfg ≤ s.jb.count.toNat + frames.length)
    (hs : s.script = fillScript frames) :
    ∃ t, runSteps frames.length s = .next t ∧ t.jb.phase = .playing := by
  induction frames generalizing s with
  | nil =>
    refine ⟨s, rfl, ?_⟩
    cases hp : s.jb.phase with
    | playing => rfl
    | prefill => exact absurd (h.prefill_below hp) (hmissing hp).not_gt
  | cons f fs ih =>
    obtain ⟨hhead, htail⟩ := List.forall_mem_cons.mp hf
    obtain ⟨u, hstep, hinv, hscript, hcfg, hprogress⟩ := step_jbFill_progress h hhead hs
    have hleft : u.jb.phase = .prefill → prefillBytes u.cfg ≤ u.jb.count.toNat + fs.length := by
      intro hu
      obtain ⟨hp, hmore⟩ := hprogress hu
      have hneed := hmissing hp
      rw [List.length_cons] at hneed
      rw [hcfg]
      omega
    obtain ⟨t, hrun, hplaying⟩ := ih hinv htail hleft hscript
    exact ⟨t, (Laws.runSteps_succ hstep).trans hrun, hplaying⟩

/-- Settles O43. -/
theorem prefillCompletes : Obligations.PrefillCompletes :=
  fun _ _ h _ hf henough hs => runSteps_fillScript_playing h hf (fun _ => henough) hs

end Sys2Proof.Proofs
end
